-- ==== Sys2Proof/Word.lean ====
section
/-! DEFINITION. The two machine words of HASHCORE: a byte and a 32-bit word (spec rules R6, R8). -/

namespace Sys2Proof

/-- A byte: an unsigned 8-bit value (rule R8). -/
abbrev Byte := BitVec 8

/-- A word: an unsigned 32-bit value (rule R8). -/
abbrev Word := BitVec 32

end Sys2Proof
end

