-- ==== Sys2Proof/Syntax.lean ====
section
/-! DEFINITION. The instructions of HASHCORE: the eight host commands (rules R146 to R153) and the eight step kinds
that the sequencer issues inside a compression (rules R114 to R117, R133 to R136), one constructor per row of
spec/opcode_table.json; and the words they are read from. -/

namespace Sys2Proof

/-- The operand of UPDATE (rule R58): `notBytes` is `pv = 0`, `bytes data` is `pv = 1` with any finite byte
sequence. -/
inductive Payload where
  | notBytes
  | bytes (data : List Byte)
deriving DecidableEq, Repr

/-- One constructor per row of the opcode table. A step micro-operation carries the step index that selects it and
that addresses its ROM row (rules R67, R69) or its schedule word (rule R68). -/
inductive Instr where
  | md5Init
  | md5Update (payload : Payload)
  | md5Digest
  | md5Hex
  | sha1Init
  | sha1Update (payload : Payload)
  | sha1Digest
  | sha1Hex
  | md5StepF (j : BitVec 6)
  | md5StepG (j : BitVec 6)
  | md5StepH (j : BitVec 6)
  | md5StepI (j : BitVec 6)
  | sha1StepP1 (t : BitVec 7)
  | sha1StepP2 (t : BitVec 7)
  | sha1StepP3 (t : BitVec 7)
  | sha1StepP4 (t : BitVec 7)
deriving DecidableEq, Repr

/-- What the decoder reads. The opcode table has three formats whose bit patterns overlap, told apart by where the
word comes from: a command word with its payload from the host (format CMD8, rules R55, R58); the 6-bit step index of
the MD5 sequencer (format MD5_ROUND, rule R67); the 7-bit step index of the SHA-1 sequencer (format SHA1_ROUND matches
the phase derived from it, rule R68). -/
inductive Issue where
  | command (cmd : BitVec 8) (payload : Payload)
  | md5Index (j : BitVec 6)
  | sha1Index (t : BitVec 7)
deriving DecidableEq, Repr

/-- What the outside world presents to the machine next: a hardware reset (rule R186) or one word to carry out. -/
inductive Request where
  | reset
  | issue (w : Issue)
deriving DecidableEq, Repr

end Sys2Proof
end

