-- ==== Sys2Proof/WellFormed.lean ====
section
/-! DEFINITION. Which instructions exist: a step micro-operation carries a step index of its own phase
(rules R67, R68; rules R114 to R117 and R133 to R136 give each kind its sixteen or twenty steps). A command is well
formed whatever its payload is (rules R46, R58). -/

namespace Sys2Proof

/-- Step `j` of MD5 belongs to phase `p = floor(j / 16)` (rules R67, R109). -/
def md5InPhase (p : Nat) (j : BitVec 6) : Bool := j.toNat / 16 == p

/-- Step `t` of SHA-1 belongs to phase `p = floor(t / 20)` (rules R68, R130). -/
def sha1InPhase (p : Nat) (t : BitVec 7) : Bool := t.toNat / 20 == p

/-- The well-formedness check of an instruction. -/
def Instr.wf : Instr → Bool
  | .md5Init => true
  | .md5Update _ => true
  | .md5Digest => true
  | .md5Hex => true
  | .sha1Init => true
  | .sha1Update _ => true
  | .sha1Digest => true
  | .sha1Hex => true
  | .md5StepF j => md5InPhase 0 j
  | .md5StepG j => md5InPhase 1 j
  | .md5StepH j => md5InPhase 2 j
  | .md5StepI j => md5InPhase 3 j
  | .sha1StepP1 t => sha1InPhase 0 t
  | .sha1StepP2 t => sha1InPhase 1 t
  | .sha1StepP3 t => sha1InPhase 2 t
  | .sha1StepP4 t => sha1InPhase 3 t

end Sys2Proof
end

