-- ==== Sys2Proof/Decode.lean ====
section
/-! DEFINITION. The decoder, total on every word, and the encoder, both from 30_encoding.md (rules R55 to R59, R67,
R68); then the reading of an opcode-table word that the host asks for. -/

namespace Sys2Proof

/-- Why a word is not an instruction. -/
inductive Reject where
  /-- `cmd[6:3] != 0000` (rules R59, R171). -/
  | reservedBits
  /-- `cmd[2:0]` in `100..111` (rules R59, R171). -/
  | reservedOp
  /-- An MD5 or SHA-1 step index that no step kind has: `t` in `80..127` (rules R26, R68). -/
  | noSuchStep
deriving DecidableEq, Repr

/-- Field `e` of a command word, the engine select (rules R55, R57): false is MD5, true is SHA1. -/
def cmdEngine (cmd : BitVec 8) : Bool := cmd.getLsbD 7

/-- Field `rsv = cmd[6:3]` of a command word (rule R55). -/
def cmdReserved (cmd : BitVec 8) : BitVec 4 := cmd.extractLsb' 3 4

/-- Field `op = cmd[2:0]` of a command word (rules R55, R56). -/
def cmdOp (cmd : BitVec 8) : BitVec 3 := cmd.extractLsb' 0 3

/-- The four MD5 operation codes (rule R56). -/
def decodeMd5Op (op : BitVec 3) (payload : Payload) : Except Reject Instr :=
  match op.toNat with
  | 0 => .ok .md5Init
  | 1 => .ok (.md5Update payload)
  | 2 => .ok .md5Digest
  | 3 => .ok .md5Hex
  | _ => .error .reservedOp

/-- The four SHA-1 operation codes (rule R56). -/
def decodeSha1Op (op : BitVec 3) (payload : Payload) : Except Reject Instr :=
  match op.toNat with
  | 0 => .ok .sha1Init
  | 1 => .ok (.sha1Update payload)
  | 2 => .ok .sha1Digest
  | 3 => .ok .sha1Hex
  | _ => .error .reservedOp

/-- A host command word with the payload presented beside it; only UPDATE keeps the payload (rules R55 to R59). -/
def decodeCommand (cmd : BitVec 8) (payload : Payload) : Except Reject Instr :=
  if cmdReserved cmd ≠ 0 then .error .reservedBits
  else if cmdEngine cmd then decodeSha1Op (cmdOp cmd) payload
  else decodeMd5Op (cmdOp cmd) payload

/-- An MD5 step index: its two top bits `j[5:4]` select the kind (rule R67). -/
def decodeMd5Step (j : BitVec 6) : Except Reject Instr :=
  match (j.extractLsb' 4 2).toNat with
  | 0 => .ok (.md5StepF j)
  | 1 => .ok (.md5StepG j)
  | 2 => .ok (.md5StepH j)
  | _ => .ok (.md5StepI j)

/-- A SHA-1 step index: `p = floor(t / 20)` selects the kind; there is no step past 79 (rules R26, R68). -/
def decodeSha1Step (t : BitVec 7) : Except Reject Instr :=
  match t.toNat / 20 with
  | 0 => .ok (.sha1StepP1 t)
  | 1 => .ok (.sha1StepP2 t)
  | 2 => .ok (.sha1StepP3 t)
  | 3 => .ok (.sha1StepP4 t)
  | _ => .error .noSuchStep

/-- The decoder: total, and rejecting by name. -/
def decode : Issue → Except Reject Instr
  | .command cmd payload => decodeCommand cmd payload
  | .md5Index j => decodeMd5Step j
  | .sha1Index t => decodeSha1Step t

/-- The command word with fields `e`, `rsv = 0000` and `op` (rule R55). -/
def commandWord (e : BitVec 1) (op : BitVec 3) : BitVec 8 := e ++ (0#4 ++ op)

/-- The encoder: the word of an instruction, from the tables of rules R55, R56, R67 and R68. A command without an
operand is presented with an empty payload. -/
def encode : Instr → Issue
  | .md5Init => .command (commandWord 0 0) (.bytes [])
  | .md5Update payload => .command (commandWord 0 1) payload
  | .md5Digest => .command (commandWord 0 2) (.bytes [])
  | .md5Hex => .command (commandWord 0 3) (.bytes [])
  | .sha1Init => .command (commandWord 1 0) (.bytes [])
  | .sha1Update payload => .command (commandWord 1 1) payload
  | .sha1Digest => .command (commandWord 1 2) (.bytes [])
  | .sha1Hex => .command (commandWord 1 3) (.bytes [])
  | .md5StepF j => .md5Index j
  | .md5StepG j => .md5Index j
  | .md5StepH j => .md5Index j
  | .md5StepI j => .md5Index j
  | .sha1StepP1 t => .sha1Index t
  | .sha1StepP2 t => .sha1Index t
  | .sha1StepP3 t => .sha1Index t
  | .sha1StepP4 t => .sha1Index t

/-- Whether a command word is one of the eight legal ones (rule R56). -/
def isCommandWord (cmd : BitVec 8) : Bool := cmdReserved cmd == 0 && (cmdOp cmd).toNat < 4

/-- Which word an opcode-table word of `nbits` bits stands for. The table's three formats share bit patterns
(0x00 is MD5.INIT, step 0 of MD5 and phase 0 of SHA-1), so a rule is needed (assumption log entry 7): a 2-bit word is
a SHA-1 phase, standing for its first step; a word of 3 to 7 bits, or of more than one byte, is an MD5 step index; an
8-bit word is a command word where it is one of the eight legal ones, else an MD5 step index where it fits in six
bits, else a (reserved) command word. -/
def tableIssue (nbits w : Nat) : Issue :=
  if nbits ≤ 2 then .sha1Index (BitVec.ofNat 7 (20 * (w % 4)))
  else if nbits ≤ 7 then .md5Index (BitVec.ofNat 6 w)
  else if nbits ≤ 8 then
    if isCommandWord (BitVec.ofNat 8 w) then .command (BitVec.ofNat 8 w) (.bytes [])
    else if w < 64 then .md5Index (BitVec.ofNat 6 w)
    else .command (BitVec.ofNat 8 w) (.bytes [])
  else .md5Index (BitVec.ofNat 6 w)

/-- The instruction the decoder reads from an opcode-table word; none where it rejects the word. -/
def decodeTableWord (nbits w : Nat) : Option Instr := (decode (tableIssue nbits w)).toOption

end Sys2Proof
end

