-- ==== Sys2Proof/Config.lean ====
section
/-! DEFINITION. The free values: what a transient register or cell holds between commands is left unspecified by the
spec (rules R32, R33, R187 and entry U4 of 93_implementation_defined.md). Each constant below has no body, so no proof
can see a value of it, and each engine has constants of its own, so nothing relates the contents of one engine to those
of the other. The machine applies a constant to the engine's release counter (a field of State) and to a cell number.
That the contents are a function of that count and nothing else is the model's choice, see assumption log entry 4.

The spec's two OPEN parameters have no constant here: TRANSPORT is not modelled (decision D1) and MAX_CHUNK is
unbounded, any finite list of bytes (decision D5). -/

namespace Sys2Proof.Config

/-- The byte that a released transient byte cell of the MD5 engine holds: release number, then cell number (U4). -/
opaque freeMd5Byte : Nat → Nat → BitVec 8

/-- The word that a released transient word of the MD5 engine holds: release number, then word number (U4). -/
opaque freeMd5Word : Nat → Nat → BitVec 32

/-- What the MD5 step counter holds between commands: release number (rule R26, U4). -/
opaque freeMd5Counter : Nat → Fin 65

/-- The byte that a released transient byte cell of the SHA-1 engine holds: release number, then cell number (U4). -/
opaque freeSha1Byte : Nat → Nat → BitVec 8

/-- The word that a released transient word of the SHA-1 engine holds: release number, then word number (U4). -/
opaque freeSha1Word : Nat → Nat → BitVec 32

/-- What the SHA-1 step counter holds between commands: release number (rule R26, U4). -/
opaque freeSha1Counter : Nat → Fin 81

end Sys2Proof.Config
end

