-- ==== Sys2Proof/Machine/State.lean ====
section
/-! DEFINITION. The state of HASHCORE (10_state.md, 20_memory.md), as plain data, the reasons a step can stop, and the
state after reset. Two engines, each with its state register H, message buffer, byte counter, finalised flag and the
transient registers of a compression; and the two sides of the host interface (requests to come, responses given). -/

namespace Sys2Proof.Machine

/-- Why a step stops with a fault. -/
inductive Fault where
  /-- A step micro-operation was issued with a step index outside the steps of its kind (rules R26, R67, R68: the
  sequencer issues only indexes 0..63 and 0..79, each to the kind of its phase). Raised by the step for a SHA-1 index
  of 80 or more and by the micro-operations for an ill-formed instruction. Safe. -/
  | noSuchStep
deriving DecidableEq, Repr

/-- Why a step is refused. -/
inductive Refusal where
  /-- An instruction without a meaning in this model, by its mnemonic. Raised by a refused arm of exec only; none is
  left. Safe. -/
  | notModelled (mnemonic : String)
  /-- An UPDATE that would take LEN above MAX_MSG (rules R154, R181(f); 93_implementation_defined.md U3: "refuse").
  Raised by the two UPDATE commands. Safe. -/
  | messageTooLong
deriving DecidableEq, Repr

/-- A 64-byte block (rule R62), and the block latch BLK (rule R36). -/
abbrev Block := Vector Byte 64

/-- The padded tail PAD (rule R36). -/
abbrev PadSpace := Vector Byte 128

/-- The MD5 state register: `H[0] = A`, `H[1] = B`, `H[2] = C`, `H[3] = D` (rule R14). -/
structure Md5H where
  a : Word
  b : Word
  c : Word
  d : Word
deriving DecidableEq, Repr

/-- The SHA-1 state register: `H[i] = hi` (rule R15). -/
structure Sha1H where
  h0 : Word
  h1 : Word
  h2 : Word
  h3 : Word
  h4 : Word
deriving DecidableEq, Repr

/-- The transient registers of the MD5 engine: block latch, padded tail, block words (rules R24, R36), working
variables and temp (rule R22), step counter (rule R26). The counter's value 64 is the one the loop test
`while j < 64` of rule R121 ends on. -/
structure Md5Work where
  blk : Block
  pad : PadSpace
  x : Vector Word 16
  a : Word
  b : Word
  c : Word
  d : Word
  temp : Word
  j : Fin 65
deriving DecidableEq, Repr

/-- The transient registers of the SHA-1 engine: block latch, padded tail (rule R36), message schedule, whose first
sixteen words are the block words X (rules R24, R25), working variables, temp, f and k (rule R23), step counter (rule
R26; 80 is the value the loop of rule R140 ends on). -/
structure Sha1Work where
  blk : Block
  pad : PadSpace
  w : Vector Word 80
  a : Word
  b : Word
  c : Word
  d : Word
  e : Word
  temp : Word
  f : Word
  k : Word
  t : Fin 81
deriving DecidableEq, Repr

/-- The state of one engine: state register `h` (rules R14, R15), message buffer `buf`, byte counter `len` (LEN, rule
R19), finalised flag `fin` (FIN, rule R20), transient registers `work`, and the model's own counter `fresh` of how
often the transients were released to unknown contents. BUF and BUFLEN are one byte sequence, as rule R17 allows:
`BUF[0 .. BUFLEN-1]` is `buf` and BUFLEN is its length. -/
structure Engine (η ω : Type) where
  h : η
  buf : List Byte
  len : BitVec 64
  fin : Bool
  work : ω
  fresh : Nat
deriving DecidableEq, Repr

/-- A response: an 8-bit status and a byte sequence (rule R60). -/
structure Response where
  status : BitVec 8
  data : List Byte
deriving DecidableEq, Repr

/-- The whole machine: the two engines (rules R13, R179), the requests the host will present, in order (rules R29,
R50), and the responses given so far, oldest first (rules R60, R196). -/
structure State where
  md5 : Engine Md5H Md5Work
  sha1 : Engine Sha1H Sha1Work
  pending : List Request
  responses : List Response
deriving DecidableEq, Repr

/-- The MD5 transients at reset. The spec leaves them unspecified (rules R32, R33); zero is the model's choice
(assumption log entry 3) and no statement rests on it. -/
def Md5Work.reset : Md5Work where
  blk := Vector.replicate 64 0
  pad := Vector.replicate 128 0
  x := Vector.replicate 16 0
  a := 0
  b := 0
  c := 0
  d := 0
  temp := 0
  j := 0

/-- The SHA-1 transients at reset, as for MD5 (assumption log entry 3). -/
def Sha1Work.reset : Sha1Work where
  blk := Vector.replicate 64 0
  pad := Vector.replicate 128 0
  w := Vector.replicate 80 0
  a := 0
  b := 0
  c := 0
  d := 0
  e := 0
  temp := 0
  f := 0
  k := 0
  t := 0

/-- The machine right after a hardware reset (rules R32, R186), with no request presented and no response given. -/
def State.reset : State where
  md5 :=
    { h := ⟨0x67452301, 0xEFCDAB89, 0x98BADCFE, 0x10325476⟩
      buf := [], len := 0, fin := false, work := Md5Work.reset, fresh := 0 }
  sha1 :=
    { h := ⟨0x67452301, 0xEFCDAB89, 0x98BADCFE, 0x10325476, 0xC3D2E1F0⟩
      buf := [], len := 0, fin := false, work := Sha1Work.reset, fresh := 0 }
  pending := []
  responses := []

end Sys2Proof.Machine
end

