-- ==== Sys2Proof/Machine/Ops.lean ====
section
/-! DEFINITION. The named operations every instruction is written over: reads and writes of the byte spaces, responses
and errors, the release of transients, padding, and the three engine operations Absorb, Finalize and INIT, written once
for both engines (rule R10). -/

namespace Sys2Proof.Machine

/-! ### Byte spaces -/

/-- `MemRead(S, addr, n)`: the bytes at offsets `addr .. addr+n-1` in ascending order (rules R9, R36). -/
def memRead {size : Nat} (space : Vector Byte size) (addr n : Nat) : List Byte :=
  (space.toList.drop addr).take n

/-- `MemWrite(S, addr, len(v), v)`: the bytes of `v` go to offsets `addr ..`, every other cell keeps its value (rules
R9, R36). -/
def memWrite {size : Nat} (space : Vector Byte size) (addr : Nat) (v : List Byte) : Vector Byte size :=
  Vector.ofFn fun i =>
    if addr ≤ i.val then v.getD (i.val - addr) (space.get i) else space.get i

/-- The block latch contents for a 64-byte sequence. The rules hand only complete blocks to a compression (rule R46);
on a shorter sequence, which never occurs, the missing bytes are zero. -/
def blockOf (s : List Byte) : Block := Vector.ofFn fun i => s.getD i.val 0

/-- The first `n` blocks of a byte stream, in stream order (rules R46, R50). -/
def blocksOf : Nat → List Byte → List Block
  | 0, _ => []
  | n + 1, s => blockOf s :: blocksOf n (s.drop 64)

/-! ### Responses and errors -/

/-- The status `OK` (rule R61). -/
def statusOk : BitVec 8 := 0x00

/-- The three errors (rule R167). -/
inductive ErrorKind where
  | invalidInput
  | finalizedState
  | illegalCommand
deriving DecidableEq, Repr

/-- The status code of an error (rules R61, R167). -/
def errorStatus : ErrorKind → BitVec 8
  | .invalidInput => 0x01
  | .finalizedState => 0x02
  | .illegalCommand => 0x03

/-- `respond(status, data)`: the one response that ends a command (rule R60). -/
def respond (status : BitVec 8) (data : List Byte) (s : State) : State :=
  { s with responses := s.responses ++ [⟨status, data⟩] }

/-- `raise <Error>()`, this hardware's whole form of an exception (rules R168, R174): the command ends at once with the
error's status and empty data, and both engines are exactly as they were, transients included: "the failing command has
had no effect at all" (rule R174). There is nothing to return from (rule R175). -/
def raiseError (e : ErrorKind) (s : State) : State := respond (errorStatus e) [] s

/-- What becomes of a word the decoder rejects. A reserved command word raises IllegalCommand, whatever payload came
with it (rules R59, R171); a step index that no step has cannot be issued by the sequencer (rule R26). -/
def rejectIssue (r : Reject) (s : State) : Host.Outcome State Fault Refusal :=
  match r with
  | .reservedBits => .next (raiseError .illegalCommand s)
  | .reservedOp => .next (raiseError .illegalCommand s)
  | .noSuchStep => .fault .noSuchStep

/-- Replace the MD5 engine. -/
def setMd5 (e : Engine Md5H Md5Work) (s : State) : State := { s with md5 := e }

/-- Replace the SHA-1 engine. -/
def setSha1 (e : Engine Sha1H Sha1Work) (s : State) : State := { s with sha1 := e }

/-! ### What differs between the two engines -/

/-- The parts of an engine's rules that depend on the algorithm `ALG` (rules R6, R10): initial state, length field,
compression, digest, access to its PAD cells, and the unknown contents its transients are released to. -/
structure Alg (η ω : Type) where
  iv : η
  lenField : BitVec 64 → List Byte
  compress : Engine η ω → Block → Engine η ω
  digest : η → List Byte
  pad : ω → PadSpace
  setPad : PadSpace → ω → ω
  free : Nat → ω

/-! ### Engine operations -/

/-- The number of bytes in the tail, BUFLEN (rules R17, R18). -/
def bufLen {η ω : Type} (e : Engine η ω) : Nat := e.buf.length

/-- `H <- IV; BUFLEN <- 0; LEN <- 0; FIN <- 0` (rules R146, R150, R186). The transients are written by
`complete`, at the end of the command. -/
def initEngine {η ω : Type} (A : Alg η ω) (e : Engine η ω) : Engine η ω :=
  { e with h := A.iv, buf := [], len := 0, fin := false }

/-- The end of a command that ran, or a hardware reset: the transients hold no specified value any more (rules R33, R141,
R187, U4: "after reset and after every command"), so they take free values. -/
def release {η ω : Type} (A : Alg η ω) (e : Engine η ω) : Engine η ω :=
  { e with work := A.free e.fresh, fresh := e.fresh + 1 }

/-- Compress blocks one after another, each from the H the previous one left (rule R50). -/
def compressBlocks {η ω : Type} (A : Alg η ω) (bs : List Block) (e : Engine η ω) : Engine η ω :=
  bs.foldl A.compress e

/-- `Absorb(data)` (rule R154): the tail and the payload are one stream, every complete block of it is compressed, the
remainder is the new tail, and LEN grows by the payload's length. -/
def absorb {η ω : Type} (A : Alg η ω) (data : List Byte) (e : Engine η ω) : Engine η ω :=
  let stream := e.buf ++ data
  let nblk := stream.length / 64
  let done := compressBlocks A (blocksOf nblk stream) e
  { done with buf := stream.drop (64 * nblk), len := done.len + BitVec.ofNat 64 data.length }

/-- `PADLEN` for a tail of `r` bytes (rules R63, R97). -/
def padLen (r : Nat) : Nat := if r ≤ 55 then 64 else 128

/-- The padded tail of rule R98, written over what PAD held: the tail, the marker 0x80, zeros, the length field. -/
def padTail (lenField : BitVec 64 → List Byte) (buf : List Byte) (len : BitVec 64) (pad : PadSpace) : PadSpace :=
  let r := buf.length
  let withTail := memWrite pad 0 buf
  let withMarker := memWrite withTail r [0x80]
  let withZeros := memWrite withMarker (r + 1) (List.replicate (padLen r - 9 - r) 0)
  memWrite withZeros (padLen r - 8) (lenField len)

/-- The block at offset `addr` of the engine's PAD (rule R103). -/
def padBlock {η ω : Type} (A : Alg η ω) (addr : Nat) (e : Engine η ω) : Block :=
  blockOf (memRead (A.pad e.work) addr 64)

/-- `Finalize` (rule R103), for an engine with FIN = 0. -/
def finalize {η ω : Type} (A : Alg η ω) (e : Engine η ω) : Engine η ω :=
  let padded := { e with work := A.setPad (padTail A.lenField e.buf e.len (A.pad e.work)) e.work }
  let one := A.compress padded (padBlock A 0 padded)
  let all := if padLen e.buf.length = 128 then A.compress one (padBlock A 64 one) else one
  { all with buf := [], fin := true }

/-- The engine after the `if FIN = 0: Finalize()` that DIGEST and HEX begin with (rules R148, R149, R152, R153). -/
def finalized {η ω : Type} (A : Alg η ω) (e : Engine η ω) : Engine η ω :=
  if e.fin then e else finalize A e

end Sys2Proof.Machine
end

