-- ==== Sys2Proof/Machine/Operands.lean ====
section
/-! DEFINITION. How operands and results are put together: byte order (rules R39 to R45), the words of a block (rules
R62, R107, R127), the length field (rules R64, R91, R99 to R101), the digest (rules R65, R119, R138), the hex digest
(rules R66, R159), and the domain of the UPDATE payload (rules R58, R154). -/

namespace Sys2Proof.Machine

/-- Byte `i` of a sequence; sequences are read only inside their length. -/
def byteAt (b : List Byte) (i : Nat) : Byte := b.getD i 0

/-- `le32(b)`: the first byte is least significant (rule R39). -/
def le32 (b : List Byte) : Word := byteAt b 3 ++ (byteAt b 2 ++ (byteAt b 1 ++ byteAt b 0))

/-- `be32(b)`: the first byte is most significant (rule R40). -/
def be32 (b : List Byte) : Word := byteAt b 0 ++ (byteAt b 1 ++ (byteAt b 2 ++ byteAt b 3))

/-- `le32bytes(w)` (rule R39). -/
def le32bytes (w : Word) : List Byte :=
  [w.extractLsb' 0 8, w.extractLsb' 8 8, w.extractLsb' 16 8, w.extractLsb' 24 8]

/-- `be32bytes(w)` (rule R40). -/
def be32bytes (w : Word) : List Byte :=
  [w.extractLsb' 24 8, w.extractLsb' 16 8, w.extractLsb' 8 8, w.extractLsb' 0 8]

/-- `le64bytes(v)`: byte `i` is `v[8i+7 : 8i]` (rule R41). -/
def le64bytes (v : BitVec 64) : List Byte := (List.range 8).map fun i => v.extractLsb' (8 * i) 8

/-- `be64bytes(v)`: byte `i` is `v[63-8i : 56-8i]` (rule R41). -/
def be64bytes (v : BitVec 64) : List Byte := (List.range 8).map fun i => v.extractLsb' (56 - 8 * i) 8

/-- MD5's block words: `X[k] = le32(block[4k .. 4k+3])` (rules R42, R107). -/
def loadLe (blk : Block) : Vector Word 16 := Vector.ofFn fun k => le32 (memRead blk (4 * k.val) 4)

/-- SHA-1's block words: `X[k] = be32(block[4k .. 4k+3])` (rules R42, R127). -/
def loadBe (blk : Block) : Vector Word 16 := Vector.ofFn fun k => be32 (memRead blk (4 * k.val) 4)

/-- `bitlen = (8 * LEN) mod 2^64` (rules R91, R101). -/
def bitlen (len : BitVec 64) : BitVec 64 := BitVec.ofNat 64 (8 * len.toNat)

/-- MD5's length field (rule R99). -/
def lenFieldMd5 (len : BitVec 64) : List Byte := le64bytes (bitlen len)

/-- SHA-1's length field (rule R100). -/
def lenFieldSha1 (len : BitVec 64) : List Byte := be64bytes (bitlen len)

/-- `Digest_MD5(H)` (rule R119). -/
def digestMd5 (h : Md5H) : List Byte := le32bytes h.a ++ le32bytes h.b ++ le32bytes h.c ++ le32bytes h.d

/-- `Digest_SHA1(H)` (rule R138). -/
def digestSha1 (h : Sha1H) : List Byte :=
  be32bytes h.h0 ++ be32bytes h.h1 ++ be32bytes h.h2 ++ be32bytes h.h3 ++ be32bytes h.h4

/-- `HEXDIGIT(v)`: the ASCII code of a lower-case hex digit (rule R159). -/
def hexDigit (v : BitVec 4) : Byte :=
  if v.toNat ≤ 9 then BitVec.ofNat 8 (0x30 + v.toNat) else BitVec.ofNat 8 (0x61 + (v.toNat - 10))

/-- `HexEncode(d)`: two characters a byte, high nibble first (rules R66, R159). -/
def hexEncode (d : List Byte) : List Byte :=
  d.flatMap fun b => [hexDigit (b.extractLsb' 4 4), hexDigit (b.extractLsb' 0 4)]

/-- `MAX_MSG = 2^61 - 1`, the largest total message length the rules define (rule R7, decision D7). -/
def maxMsg : Nat := 2 ^ 61 - 1

/-- The precondition `LEN + n <= MAX_MSG` of Absorb (rules R58, R154). -/
def fits (len : BitVec 64) (data : List Byte) : Bool := decide (len.toNat + data.length ≤ maxMsg)

end Sys2Proof.Machine
end

