-- ==== Sys2Proof/Machine/Flags.lean ====
section
/-! DEFINITION. The one flag of the hardware, FIN (rules R20, R21), and what it decides. There are no condition codes
and no arithmetic flag: add32 discards its carry (rules R80, R92). FIN is set by `finalize`, cleared by `initEngine`
(both in Ops.lean), and read here by UPDATE and in `finalized` by DIGEST and HEX. -/

namespace Sys2Proof.Machine

/-- The error an UPDATE ends with, if any, in the order of rule R172: InvalidInput when `pv = 0`, whatever FIN is (rule
R169), then FinalizedState when `FIN = 1` (rule R170). -/
def updateError (fin : Bool) (payload : Payload) : Option ErrorKind :=
  match payload with
  | .notBytes => some .invalidInput
  | .bytes _ => if fin then some .finalizedState else none

/-- The bytes of a payload; with `pv = 0` its data is ignored (rule R58). -/
def payloadBytes : Payload → List Byte
  | .notBytes => []
  | .bytes data => data

/-- The end of a command that ran: its engine is stored back by `put` with the transients released (rule R33, U4), and the
one response is OK with the command's data (rule R60). -/
def complete {η ω : Type} (A : Alg η ω) (put : Engine η ω → State → State) (data : List Byte) (e : Engine η ω)
    (s : State) : State :=
  respond statusOk data (put (release A e) s)

/-- The body shared by the two UPDATE commands (rules R147, R151): the error checks come first (rule R145); a message
over MAX_MSG is refused (rule R181(f), U3); else the payload is absorbed and the response is OK without data. -/
def updateWith {η ω : Type} (A : Alg η ω) (put : Engine η ω → State → State) (payload : Payload) (e : Engine η ω)
    (s : State) : Host.Outcome State Fault Refusal :=
  match updateError e.fin payload with
  | some err => .next (raiseError err s)
  | none =>
    if fits e.len (payloadBytes payload) then
      .next (complete A put [] (absorb A (payloadBytes payload) e) s)
    else .refused .messageTooLong

/-- The body shared by DIGEST and HEX (rules R148, R149, R152, R153): finalise if FIN = 0, then answer OK with the
digest as `render` writes it. -/
def digestWith {η ω : Type} (A : Alg η ω) (put : Engine η ω → State → State) (render : List Byte → List Byte)
    (e : Engine η ω) (s : State) : Host.Outcome State Fault Refusal :=
  let e' := finalized A e
  .next (complete A put (render (A.digest e'.h)) e' s)

/-- The body shared by the two INIT commands (rules R146, R150). -/
def initWith {η ω : Type} (A : Alg η ω) (put : Engine η ω → State → State) (e : Engine η ω) (s : State) :
    Host.Outcome State Fault Refusal :=
  .next (complete A put [] (initEngine A e) s)

end Sys2Proof.Machine
end

