-- ==== Sys2Proof/Machine/Rom.lean ====
section
/-! DEFINITION. The constant ROM (rules R27, R28): the MD5 round constants, word indexes and rotate amounts, the SHA-1
phase constants, and both initial states. Values from 42_md5_compress.md rules R110, R111, R112, R120 and
43_sha1_compress.md rules R131, R139. -/

namespace Sys2Proof.Machine

/-- `T[0..15]` (rule R112). -/
def romTF : List Word :=
  [0xD76AA478, 0xE8C7B756, 0x242070DB, 0xC1BDCEEE, 0xF57C0FAF, 0x4787C62A, 0xA8304613, 0xFD469501,
   0x698098D8, 0x8B44F7AF, 0xFFFF5BB1, 0x895CD7BE, 0x6B901122, 0xFD987193, 0xA679438E, 0x49B40821]

/-- `T[16..31]` (rule R112). -/
def romTG : List Word :=
  [0xF61E2562, 0xC040B340, 0x265E5A51, 0xE9B6C7AA, 0xD62F105D, 0x02441453, 0xD8A1E681, 0xE7D3FBC8,
   0x21E1CDE6, 0xC33707D6, 0xF4D50D87, 0x455A14ED, 0xA9E3E905, 0xFCEFA3F8, 0x676F02D9, 0x8D2A4C8A]

/-- `T[32..47]` (rule R112). -/
def romTH : List Word :=
  [0xFFFA3942, 0x8771F681, 0x6D9D6122, 0xFDE5380C, 0xA4BEEA44, 0x4BDECFA9, 0xF6BB4B60, 0xBEBFBC70,
   0x289B7EC6, 0xEAA127FA, 0xD4EF3085, 0x04881D05, 0xD9D4D039, 0xE6DB99E5, 0x1FA27CF8, 0xC4AC5665]

/-- `T[48..63]` (rule R112). -/
def romTI : List Word :=
  [0xF4292244, 0x432AFF97, 0xAB9423A7, 0xFC93A039, 0x655B59C3, 0x8F0CCC92, 0xFFEFF47D, 0x85845DD1,
   0x6FA87E4F, 0xFE2CE6E0, 0xA3014314, 0x4E0811A1, 0xF7537E82, 0xBD3AF235, 0x2AD7D2BB, 0xEB86D391]

/-- ROM_T: the 64 round constants `T[0..63]` (rule R112). -/
def romT : List Word := romTF ++ romTG ++ romTH ++ romTI

/-- `G[0..15]` (rules R110, R112). -/
def romGF : List (BitVec 4) :=
  [0, 1, 2, 3, 4, 5, 6, 7, 8, 9, 10, 11, 12, 13, 14, 15]

/-- `G[16..31]` (rules R110, R112). -/
def romGG : List (BitVec 4) :=
  [1, 6, 11, 0, 5, 10, 15, 4, 9, 14, 3, 8, 13, 2, 7, 12]

/-- `G[32..47]` (rules R110, R112). -/
def romGH : List (BitVec 4) :=
  [5, 8, 11, 14, 1, 4, 7, 10, 13, 0, 3, 6, 9, 12, 15, 2]

/-- `G[48..63]` (rules R110, R112). -/
def romGI : List (BitVec 4) :=
  [0, 7, 14, 5, 12, 3, 10, 1, 8, 15, 6, 13, 4, 11, 2, 9]

/-- ROM_G: the 64 message word indexes `G[0..63]`, four bits each (rules R36, R110). -/
def romG : List (BitVec 4) := romGF ++ romGG ++ romGH ++ romGI

/-- ROM_S: the 4x4 rotate table `SROW[p][q]`, row after row, five bits an entry (rules R36, R111). -/
def romS : List (BitVec 5) :=
  [7, 12, 17, 22,
   5, 9, 14, 20,
   4, 11, 16, 23,
   6, 10, 15, 21]

/-- ROM_K: the four SHA-1 phase constants `K[0..3]` (rule R131). -/
def romK : List Word := [0x5A827999, 0x6ED9EBA1, 0x8F1BBCDC, 0xCA62C1D6]

/-- `T[j]`, the round constant of MD5 step `j` (rule R112). -/
def md5T (j : BitVec 6) : Word := romT.getD j.toNat 0

/-- `G[j]`, the block word index of MD5 step `j` (rule R110). -/
def md5G (j : BitVec 6) : BitVec 4 := romG.getD j.toNat 0

/-- `S[j] = SROW[floor(j/16)][j mod 4]`, the rotate amount of MD5 step `j` (rule R111). -/
def md5S (j : BitVec 6) : Nat := (romS.getD (4 * (j.toNat / 16) + j.toNat % 4) 0).toNat

/-- `K[p]`, the constant of SHA-1 phase `p` (rule R131). -/
def sha1K (p : Nat) : Word := romK.getD p 0

/-- `IV_MD5` (rule R120). -/
def ivMd5 : Md5H := ⟨0x67452301, 0xEFCDAB89, 0x98BADCFE, 0x10325476⟩

/-- `IV_SHA1` (rule R139). -/
def ivSha1 : Sha1H := ⟨0x67452301, 0xEFCDAB89, 0x98BADCFE, 0x10325476, 0xC3D2E1F0⟩

end Sys2Proof.Machine
end

