-- ==== Sys2Proof/Machine/WordOps.lean ====
section
/-! DEFINITION. The 32-bit word operations and the eight mixing functions of 40_word_ops.md (rules R80 to R92). NOT,
AND, OR and XOR of rule R82 are Lean's `~~~`, `&&&`, `|||` and `^^^` on 32-bit words. -/

namespace Sys2Proof.Machine

/-- Addition mod 2^32, the carry discarded (rule R80). -/
def add32 (x y : Word) : Word := x + y

/-- Rotate left (rule R81). The spec defines it for amounts 1 to 31; for others this is the rotation by the amount mod
32, which rule R81 and U9 allow and no instruction uses. -/
def rotl32 (x : Word) (n : Nat) : Word := x.rotateLeft n

/-- MD5 phase 1: if `x` then `y` else `z` (rule R83). -/
def mixF (x y z : Word) : Word := (x &&& y) ||| (~~~x &&& z)

/-- MD5 phase 2: if `z` then `x` else `y` (rule R84). -/
def mixG (x y z : Word) : Word := (x &&& z) ||| (y &&& ~~~z)

/-- MD5 phase 3: parity (rule R85). -/
def mixH (x y z : Word) : Word := x ^^^ y ^^^ z

/-- MD5 phase 4 (rule R86). -/
def mixI (x y z : Word) : Word := y ^^^ (x ||| ~~~z)

/-- SHA-1 phase 1: choice (rule R87). -/
def mixF1 (b c d : Word) : Word := (b &&& c) ||| (~~~b &&& d)

/-- SHA-1 phase 2: parity (rule R88). -/
def mixF2 (b c d : Word) : Word := b ^^^ c ^^^ d

/-- SHA-1 phase 3: majority (rule R89). -/
def mixF3 (b c d : Word) : Word := (b &&& c) ||| (b &&& d) ||| (c &&& d)

/-- SHA-1 phase 4: parity (rule R90). -/
def mixF4 (b c d : Word) : Word := b ^^^ c ^^^ d

end Sys2Proof.Machine
end

