-- ==== Sys2Proof/Machine/Md5Engine.lean ====
section
/-! DEFINITION. The MD5 engine's sequencer (42_md5_compress.md): load, sixty-four steps, feed-forward, on the engine's
transient registers. The step body here is the one the micro-operations of Md5Round.lean execute. -/

namespace Sys2Proof.Machine

/-- The mixing function of MD5 phase `p` (rules R67, R114 to R117). -/
def md5Fn (p : Nat) : Word → Word → Word → Word :=
  match p with
  | 0 => mixF
  | 1 => mixG
  | 2 => mixH
  | _ => mixI

/-- The step body of rule R113 for step `j` with mixing function `fn`, as one parallel assignment. The counter, which
holds `j` during step `j` (rule R26), is left at `j + 1`. -/
@[irreducible] def md5StepBody (fn : Word → Word → Word → Word) (j : BitVec 6) (w : Md5Work) : Md5Work :=
  let sum := add32 (add32 (add32 w.a (fn w.b w.c w.d)) (w.x.get (md5G j).toFin)) (md5T j)
  let temp := rotl32 sum (md5S j)
  { w with temp := temp, a := w.d, b := add32 w.b temp, c := w.b, d := w.c, j := ⟨j.toNat + 1, by omega⟩ }

/-- Latch a block into BLK and load its sixteen words (rules R36, R107). -/
def md5Load (blk : Block) (w : Md5Work) : Md5Work := { w with blk := blk, x := loadLe blk }

/-- The working variables and the counter at the start of a compression (rule R108). -/
def md5Start (h : Md5H) (w : Md5Work) : Md5Work := { w with a := h.a, b := h.b, c := h.c, d := h.d, j := 0 }

/-- The sequencer issues the step its counter names, of the kind of that step's phase (rules R26, R67, R121); at 64 the
compression is over. -/
def md5Issue (w : Md5Work) : Md5Work :=
  if w.j.val < 64 then md5StepBody (md5Fn (w.j.val / 16)) (BitVec.ofNat 6 w.j.val) w else w

/-- `n` issues of the sequencer, one after another (rule R121). -/
def md5Run : Nat → Md5Work → Md5Work
  | 0, w => w
  | n + 1, w => md5Issue (md5Run n w)

/-- Feed-forward: each word of the state before the block plus its working variable (rule R118). -/
def md5Feed (h : Md5H) (w : Md5Work) : Md5H := ⟨add32 h.a w.a, add32 h.b w.b, add32 h.c w.c, add32 h.d w.d⟩

/-- `H <- Compress_MD5(H, block)` on the engine (rules R48, R106, R121): all four words are replaced at once, after the
last step. -/
@[irreducible] def md5Compress (e : Engine Md5H Md5Work) (blk : Block) : Engine Md5H Md5Work :=
  let w := md5Run 64 (md5Start e.h (md5Load blk e.work))
  { e with work := w, h := md5Feed e.h w }

/-- The unknown contents of the MD5 transients after release number `n` (U4), from constants of this engine's own. That
they depend on `n` alone is the model's choice (assumption log entry 4). -/
def md5Free (n : Nat) : Md5Work where
  blk := Vector.ofFn fun i => Config.freeMd5Byte n i.val
  pad := Vector.ofFn fun i => Config.freeMd5Byte n (64 + i.val)
  x := Vector.ofFn fun i => Config.freeMd5Word n i.val
  a := Config.freeMd5Word n 16
  b := Config.freeMd5Word n 17
  c := Config.freeMd5Word n 18
  d := Config.freeMd5Word n 19
  temp := Config.freeMd5Word n 20
  j := Config.freeMd5Counter n

/-- The MD5 column of rule R6. -/
def md5Alg : Alg Md5H Md5Work where
  iv := ivMd5
  lenField := lenFieldMd5
  compress := md5Compress
  digest := digestMd5
  pad := Md5Work.pad
  setPad := fun p w => { w with pad := p }
  free := md5Free

end Sys2Proof.Machine
end

