-- ==== Sys2Proof/Machine/Sha1Engine.lean ====
section
/-! DEFINITION. The SHA-1 engine's sequencer (43_sha1_compress.md): load, schedule expansion, eighty steps,
feed-forward, on the engine's transient registers. The step body here is the one the micro-operations of
Sha1Round.lean execute. -/

namespace Sys2Proof.Machine

/-- The mixing function of SHA-1 phase `p` (rules R68, R133 to R136). -/
def sha1Fn (p : Nat) : Word → Word → Word → Word :=
  match p with
  | 0 => mixF1
  | 1 => mixF2
  | 2 => mixF3
  | _ => mixF4

/-- Schedule word `W[i]` (rule R25); every index the rules use is below 80. -/
def schedWord (w : Vector Word 80) (i : Nat) : Word := w.toList.getD i 0

/-- The step body of rule R132 for step `t` with the function and constant of its phase, as one parallel assignment. The
counter, which holds `t` during step `t` (rule R26), is left at `t + 1`. -/
@[irreducible] def sha1StepBody (fn : Word → Word → Word → Word) (k : Word) (t : Fin 80) (w : Sha1Work) : Sha1Work :=
  let f := fn w.b w.c w.d
  let temp := add32 (add32 (add32 (add32 (rotl32 w.a 5) f) w.e) k) (schedWord w.w t.val)
  { w with
    f := f, k := k, temp := temp
    a := temp, b := w.a, c := rotl32 w.b 30, d := w.c, e := w.d
    t := t.succ }

/-- `W[k] <- be32(block[4k .. 4k+3])` for `k` in 0..15 (rule R127); the other entries are still what they were. -/
def sha1LoadWords (blk : Block) (w : Vector Word 80) : Vector Word 80 :=
  Vector.ofFn fun i => if h : i.val < 16 then (loadBe blk).get ⟨i.val, h⟩ else w.get i

/-- One schedule word: `W[i] <- rotl32(W[i-3] XOR W[i-8] XOR W[i-14] XOR W[i-16], 1)` (rule R128). -/
def sha1Expand1 (i : Nat) (w : Vector Word 80) : Vector Word 80 :=
  w.setIfInBounds i
    (rotl32 (schedWord w (i - 3) ^^^ schedWord w (i - 8) ^^^ schedWord w (i - 14) ^^^ schedWord w (i - 16)) 1)

/-- The schedule words `W[16 .. 15+n]`, in ascending order (rule R128). -/
def sha1Expand : Nat → Vector Word 80 → Vector Word 80
  | 0, w => w
  | n + 1, w => sha1Expand1 (16 + n) (sha1Expand n w)

/-- Latch a block into BLK, load its sixteen words and expand the schedule (rules R36, R127, R128). -/
def sha1Load (blk : Block) (w : Sha1Work) : Sha1Work :=
  { w with blk := blk, w := sha1Expand 64 (sha1LoadWords blk w.w) }

/-- The working variables and the counter at the start of a compression (rule R129). -/
def sha1Start (h : Sha1H) (w : Sha1Work) : Sha1Work :=
  { w with a := h.h0, b := h.h1, c := h.h2, d := h.h3, e := h.h4, t := 0 }

/-- The sequencer issues the step its counter names, of the kind of that step's phase (rules R26, R68, R140); at 80 the
compression is over. -/
def sha1Issue (w : Sha1Work) : Sha1Work :=
  if h : w.t.val < 80 then sha1StepBody (sha1Fn (w.t.val / 20)) (sha1K (w.t.val / 20)) ⟨w.t.val, h⟩ w else w

/-- `n` issues of the sequencer, one after another (rule R140). -/
def sha1Run : Nat → Sha1Work → Sha1Work
  | 0, w => w
  | n + 1, w => sha1Issue (sha1Run n w)

/-- Feed-forward (rule R137). -/
def sha1Feed (h : Sha1H) (w : Sha1Work) : Sha1H :=
  ⟨add32 h.h0 w.a, add32 h.h1 w.b, add32 h.h2 w.c, add32 h.h3 w.d, add32 h.h4 w.e⟩

/-- `H <- Compress_SHA1(H, block)` on the engine (rules R48, R126, R140): all five words are replaced at once, after
the last step. -/
@[irreducible] def sha1Compress (e : Engine Sha1H Sha1Work) (blk : Block) : Engine Sha1H Sha1Work :=
  let w := sha1Run 80 (sha1Start e.h (sha1Load blk e.work))
  { e with work := w, h := sha1Feed e.h w }

/-- The unknown contents of the SHA-1 transients after release number `n` (U4), from constants of this engine's own. That
they depend on `n` alone is the model's choice (assumption log entry 4). -/
def sha1Free (n : Nat) : Sha1Work where
  blk := Vector.ofFn fun i => Config.freeSha1Byte n i.val
  pad := Vector.ofFn fun i => Config.freeSha1Byte n (64 + i.val)
  w := Vector.ofFn fun i => Config.freeSha1Word n i.val
  a := Config.freeSha1Word n 80
  b := Config.freeSha1Word n 81
  c := Config.freeSha1Word n 82
  d := Config.freeSha1Word n 83
  e := Config.freeSha1Word n 84
  temp := Config.freeSha1Word n 85
  f := Config.freeSha1Word n 86
  k := Config.freeSha1Word n 87
  t := Config.freeSha1Counter n

/-- The SHA-1 column of rule R6. -/
def sha1Alg : Alg Sha1H Sha1Work where
  iv := ivSha1
  lenField := lenFieldSha1
  compress := sha1Compress
  digest := digestSha1
  pad := Sha1Work.pad
  setPad := fun p w => { w with pad := p }
  free := sha1Free

end Sys2Proof.Machine
end

