-- ==== Sys2Proof/Machine/Commands.lean ====
section
/-! DEFINITION. The CMD8 family: one meaning for each of the eight host commands (44_commands.md, rules R145 to R153),
and the hardware reset, which is no command (rule R186). -/

namespace Sys2Proof.Machine

/-- `MD5.INIT` (rule R146). -/
def execMd5Init (s : State) : Host.Outcome State Fault Refusal := initWith md5Alg setMd5 s.md5 s

/-- `MD5.UPDATE` (rule R147). -/
def execMd5Update (payload : Payload) (s : State) : Host.Outcome State Fault Refusal :=
  updateWith md5Alg setMd5 payload s.md5 s

/-- `MD5.DIGEST` (rule R148). -/
def execMd5Digest (s : State) : Host.Outcome State Fault Refusal := digestWith md5Alg setMd5 id s.md5 s

/-- `MD5.HEX` (rule R149). -/
def execMd5Hex (s : State) : Host.Outcome State Fault Refusal := digestWith md5Alg setMd5 hexEncode s.md5 s

/-- `SHA1.INIT` (rule R150). -/
def execSha1Init (s : State) : Host.Outcome State Fault Refusal := initWith sha1Alg setSha1 s.sha1 s

/-- `SHA1.UPDATE` (rule R151). -/
def execSha1Update (payload : Payload) (s : State) : Host.Outcome State Fault Refusal :=
  updateWith sha1Alg setSha1 payload s.sha1 s

/-- `SHA1.DIGEST` (rule R152). -/
def execSha1Digest (s : State) : Host.Outcome State Fault Refusal := digestWith sha1Alg setSha1 id s.sha1 s

/-- `SHA1.HEX` (rule R153). -/
def execSha1Hex (s : State) : Host.Outcome State Fault Refusal := digestWith sha1Alg setSha1 hexEncode s.sha1 s

/-- A hardware reset (rules R186, R187): INIT's effect on both engines at once, without a response; the transients have
no defined value afterwards, so they take free values. -/
def hardwareReset (s : State) : State :=
  setSha1 (release sha1Alg (initEngine sha1Alg s.sha1)) (setMd5 (release md5Alg (initEngine md5Alg s.md5)) s)

end Sys2Proof.Machine
end

