-- ==== Sys2Proof/Machine/Md5Round.lean ====
section
/-! DEFINITION. The MD5_ROUND family: one meaning for each of the four MD5 step kinds (rules R113 to R117). -/

namespace Sys2Proof.Machine

/-- A step micro-operation of MD5 phase `p`: the step body on the MD5 transients and nothing else, no flag and no
error (rules R113 to R117). A step index of another phase is no step of this kind (rule R67) and stops the model. -/
def md5MicroOp (p : Nat) (fn : Word → Word → Word → Word) (j : BitVec 6) (s : State) :
    Host.Outcome State Fault Refusal :=
  if md5InPhase p j then .next (setMd5 { s.md5 with work := md5StepBody fn j s.md5.work } s)
  else .fault .noSuchStep

/-- `MD5.STEP_F`, steps 0 to 15 (rule R114). -/
def execMd5StepF (j : BitVec 6) (s : State) : Host.Outcome State Fault Refusal := md5MicroOp 0 mixF j s

/-- `MD5.STEP_G`, steps 16 to 31 (rule R115). -/
def execMd5StepG (j : BitVec 6) (s : State) : Host.Outcome State Fault Refusal := md5MicroOp 1 mixG j s

/-- `MD5.STEP_H`, steps 32 to 47 (rule R116). -/
def execMd5StepH (j : BitVec 6) (s : State) : Host.Outcome State Fault Refusal := md5MicroOp 2 mixH j s

/-- `MD5.STEP_I`, steps 48 to 63 (rule R117). -/
def execMd5StepI (j : BitVec 6) (s : State) : Host.Outcome State Fault Refusal := md5MicroOp 3 mixI j s

end Sys2Proof.Machine
end

