-- ==== Sys2Proof/Machine/Sha1Round.lean ====
section
/-! DEFINITION. The SHA1_ROUND family: one meaning for each of the four SHA-1 step kinds (rules R132 to R136). -/

namespace Sys2Proof.Machine

/-- A SHA-1 step of phase `p` in 0..3 is one of the eighty steps (rules R26, R68). -/
theorem sha1InPhase_lt (p : Fin 4) (t : BitVec 7) (h : sha1InPhase p.val t = true) : t.toNat < 80 := by
  have hp : t.toNat / 20 = p.val := by simpa [sha1InPhase] using h
  omega

/-- A step micro-operation of SHA-1 phase `p`: the step body on the SHA-1 transients and nothing else, no flag and no
error (rules R132 to R136). A step index of another phase is no step of this kind (rule R68) and stops the model. -/
def sha1MicroOp (p : Fin 4) (fn : Word → Word → Word → Word) (t : BitVec 7) (s : State) :
    Host.Outcome State Fault Refusal :=
  if h : sha1InPhase p.val t = true then
    .next (setSha1
      { s.sha1 with work := sha1StepBody fn (sha1K p.val) ⟨t.toNat, sha1InPhase_lt p t h⟩ s.sha1.work } s)
  else .fault .noSuchStep

/-- `SHA1.STEP_P1`, steps 0 to 19 (rule R133). -/
def execSha1StepP1 (t : BitVec 7) (s : State) : Host.Outcome State Fault Refusal := sha1MicroOp 0 mixF1 t s

/-- `SHA1.STEP_P2`, steps 20 to 39 (rule R134). -/
def execSha1StepP2 (t : BitVec 7) (s : State) : Host.Outcome State Fault Refusal := sha1MicroOp 1 mixF2 t s

/-- `SHA1.STEP_P3`, steps 40 to 59 (rule R135). -/
def execSha1StepP3 (t : BitVec 7) (s : State) : Host.Outcome State Fault Refusal := sha1MicroOp 2 mixF3 t s

/-- `SHA1.STEP_P4`, steps 60 to 79 (rule R136). -/
def execSha1StepP4 (t : BitVec 7) (s : State) : Host.Outcome State Fault Refusal := sha1MicroOp 3 mixF4 t s

end Sys2Proof.Machine
end

