-- ==== Sys2Proof/Machine/Dispatch.lean ====
section
/-! DEFINITION. The dispatch of instructions to their meanings, one arm per constructor of Instr. -/

namespace Sys2Proof.Machine

def exec (i : Instr) (s : State) : Host.Outcome State Fault Refusal :=
  match i with
  | .md5Init => Sys2Proof.Machine.execMd5Init s
  | .md5Update payload => Sys2Proof.Machine.execMd5Update payload s
  | .md5Digest => Sys2Proof.Machine.execMd5Digest s
  | .md5Hex => Sys2Proof.Machine.execMd5Hex s
  | .sha1Init => Sys2Proof.Machine.execSha1Init s
  | .sha1Update payload => Sys2Proof.Machine.execSha1Update payload s
  | .sha1Digest => Sys2Proof.Machine.execSha1Digest s
  | .sha1Hex => Sys2Proof.Machine.execSha1Hex s
  | .md5StepF j => Sys2Proof.Machine.execMd5StepF j s
  | .md5StepG j => Sys2Proof.Machine.execMd5StepG j s
  | .md5StepH j => Sys2Proof.Machine.execMd5StepH j s
  | .md5StepI j => Sys2Proof.Machine.execMd5StepI j s
  | .sha1StepP1 t => Sys2Proof.Machine.execSha1StepP1 t s
  | .sha1StepP2 t => Sys2Proof.Machine.execSha1StepP2 t s
  | .sha1StepP3 t => Sys2Proof.Machine.execSha1StepP3 t s
  | .sha1StepP4 t => Sys2Proof.Machine.execSha1StepP4 t s

end Sys2Proof.Machine
end

