-- ==== Sys2Proof/Machine/Step.lean ====
section
/-! DEFINITION. One step of the machine: take the next request of the host or the sequencer and carry it out. There is
no program counter and no fetch from memory (rules R26, R52): the word comes with the request. -/

namespace Sys2Proof.Machine

/-- Carry out one request: a hardware reset (rule R186), or one word, decoded and executed, or rejected. -/
def runRequest (r : Request) (s : State) : Host.Outcome State Fault Refusal :=
  match r with
  | .reset => .next (hardwareReset s)
  | .issue w =>
    match decode w with
    | .ok i => exec i s
    | .error why => rejectIssue why s

/-- One step. Requests are taken one at a time in the order presented, each to completion (rule R50); with none
presented nothing changes, for an engine never acts on its own (rule R13). -/
def step (s : State) : Host.Outcome State Fault Refusal :=
  match s.pending with
  | [] => .next s
  | r :: rest => runRequest r { s with pending := rest }

/-- `s` with one opcode-table word presented as the next request, before any other. -/
def State.withFetchWord (s : State) (nbits w : Nat) : State :=
  { s with pending := .issue (tableIssue nbits w) :: s.pending }

end Sys2Proof.Machine
end

