-- ==== Sys2Proof/Machine/Message.lean ====
section
/-! DEFINITION. The spec's pure functions, written apart from the engines: the compression of a block as a function of
the state words and the block (rules R106, R121, R126, R140), the padded message (rule R105) and the digest of a whole
message (rules R122, R142). Statements compare the engines with these; and the request scripts that present a whole
message (rules R71, R155). -/

namespace Sys2Proof.Machine

/-- One MD5 step as a function of the sixteen block words, the step number and the four working variables (rule
R113). -/
def md5Mix (x : Vector Word 16) (j : Nat) (v : Md5H) : Md5H :=
  let row := BitVec.ofNat 6 j
  let sum := v.a + md5Fn (j / 16) v.b v.c v.d + x.get (md5G row).toFin + md5T row
  ⟨v.d, v.b + rotl32 sum (md5S row), v.b, v.c⟩

/-- The first `n` MD5 steps. -/
def md5Mixes (x : Vector Word 16) : Nat → Md5H → Md5H
  | 0, v => v
  | n + 1, v => md5Mix x n (md5Mixes x n v)

/-- `Compress_MD5(Hin, block)` (rule R121). -/
def compressMd5 (h : Md5H) (blk : Block) : Md5H :=
  let v := md5Mixes (loadLe blk) 64 h
  ⟨h.a + v.a, h.b + v.b, h.c + v.c, h.d + v.d⟩

/-- The schedule `W[0 .. 15+n]` of a block as a growing list (rules R127, R128). -/
def sha1Schedule (blk : Block) : Nat → List Word
  | 0 => (loadBe blk).toList
  | n + 1 =>
    let ws := sha1Schedule blk n
    ws ++ [rotl32 (ws.getD (13 + n) 0 ^^^ ws.getD (8 + n) 0 ^^^ ws.getD (2 + n) 0 ^^^ ws.getD n 0) 1]

/-- One SHA-1 step as a function of the schedule, the step number and the five working variables (rule R132). -/
def sha1Mix (ws : List Word) (t : Nat) (v : Sha1H) : Sha1H :=
  let temp := rotl32 v.h0 5 + sha1Fn (t / 20) v.h1 v.h2 v.h3 + v.h4 + sha1K (t / 20) + ws.getD t 0
  ⟨temp, v.h0, rotl32 v.h1 30, v.h2, v.h3⟩

/-- The first `n` SHA-1 steps. -/
def sha1Mixes (ws : List Word) : Nat → Sha1H → Sha1H
  | 0, v => v
  | n + 1, v => sha1Mix ws n (sha1Mixes ws n v)

/-- `Compress_SHA1(Hin, block)` (rule R140). -/
def compressSha1 (h : Sha1H) (blk : Block) : Sha1H :=
  let v := sha1Mixes (sha1Schedule blk 64) 80 h
  ⟨h.h0 + v.h0, h.h1 + v.h1, h.h2 + v.h2, h.h3 + v.h3, h.h4 + v.h4⟩

/-- The number of zero bytes of padding, `z = (55 - L) mod 64` (rule R105). -/
def padZeros (len : Nat) : Nat := (119 - len % 64) % 64

/-- `Pad_ALG(M) = M ‖ [0x80] ‖ [0x00]^z ‖ LenField(L)` (rule R105). -/
def padMessage (lenField : BitVec 64 → List Byte) (m : List Byte) : List Byte :=
  m ++ [0x80] ++ List.replicate (padZeros m.length) 0 ++ lenField (BitVec.ofNat 64 m.length)

/-- All the 64-byte blocks of a sequence. -/
def allBlocks (s : List Byte) : List Block := blocksOf (s.length / 64) s

/-- The MD5 state words after the complete blocks of `m`, from the initial state (rules R120, R122). -/
def chainMd5 (m : List Byte) : Md5H := (allBlocks m).foldl compressMd5 ivMd5

/-- The SHA-1 state words after the complete blocks of `m`, from the initial state (rules R139, R142). -/
def chainSha1 (m : List Byte) : Sha1H := (allBlocks m).foldl compressSha1 ivSha1

/-- `MD5(M) = Digest_MD5(Hn)` (rule R122). -/
def md5Message (m : List Byte) : List Byte := digestMd5 (chainMd5 (padMessage lenFieldMd5 m))

/-- `SHA1(M) = Digest_SHA1(Hn)` (rule R142). -/
def sha1Message (m : List Byte) : List Byte := digestSha1 (chainSha1 (padMessage lenFieldSha1 m))

/-- The request for a host command of one instruction. -/
def requestOf (i : Instr) : Request := .issue (encode i)

/-- The bytes after the last complete block of `m`, its tail (rule R155). -/
def tailOf (m : List Byte) : List Byte := m.drop (64 * (m.length / 64))

/-- The requests that feed a message in chunks to the MD5 engine: INIT, then one UPDATE a chunk (rule R155). -/
def md5Feeding (chunks : List (List Byte)) : List Request :=
  requestOf .md5Init :: chunks.map fun c => requestOf (.md5Update (.bytes c))

/-- The requests that feed a message in chunks to the SHA-1 engine (rule R155). -/
def sha1Feeding (chunks : List (List Byte)) : List Request :=
  requestOf .sha1Init :: chunks.map fun c => requestOf (.sha1Update (.bytes c))

/-- The pseudo-commands `MD5.HASH` and `MD5.HASHHEX` (rule R71). -/
def md5Hash (data : Payload) : List Request :=
  [requestOf .md5Init, requestOf (.md5Update data), requestOf .md5Digest]

@[inherit_doc md5Hash]
def md5HashHex (data : Payload) : List Request :=
  [requestOf .md5Init, requestOf (.md5Update data), requestOf .md5Hex]

/-- The pseudo-commands `SHA1.HASH` and `SHA1.HASHHEX` (rule R71). -/
def sha1Hash (data : Payload) : List Request :=
  [requestOf .sha1Init, requestOf (.sha1Update data), requestOf .sha1Digest]

@[inherit_doc sha1Hash]
def sha1HashHex (data : Payload) : List Request :=
  [requestOf .sha1Init, requestOf (.sha1Update data), requestOf .sha1Hex]

/-- The requests of a whole MD5 compression: the sequencer's indexes 0 to 63 in order (rules R26, R121). -/
def md5StepRequests : List Request := (List.range 64).map fun j => .issue (.md5Index (BitVec.ofNat 6 j))

/-- The requests of a whole SHA-1 compression: the sequencer's indexes 0 to 79 in order (rules R26, R140). -/
def sha1StepRequests : List Request := (List.range 80).map fun t => .issue (.sha1Index (BitVec.ofNat 7 t))

end Sys2Proof.Machine
end

