-- ==== Sys2Proof/Safety.lean ====
section
/-! DEFINITION. The terms claims use: which states are good (the invariants of rule R31), what of an engine a rule may
depend on (rules R33, R158), and which engine an instruction belongs to (rules R57, R145). -/

namespace Sys2Proof.Machine

/-- The engine is at message `m` (rule R31): `m` is what UPDATE accepted since INIT, LEN is its length and within
MAX_MSG; with FIN = 0 the buffer holds its tail and H the chaining words of its complete blocks; with FIN = 1 the
buffer is empty and H holds the words of the whole padded message. `chain` is the chaining function of the engine and
`lenField` its length field. -/
def AtMessage {η ω : Type} (lenField : BitVec 64 → List Byte) (chain : List Byte → η) (m : List Byte)
    (e : Engine η ω) : Prop :=
  m.length ≤ maxMsg ∧ e.len.toNat = m.length ∧
  (e.fin = false → e.buf = tailOf m ∧ e.h = chain m) ∧
  (e.fin = true → e.buf = [] ∧ e.h = chain (padMessage lenField m))

/-- The MD5 engine is at message `m`. -/
def Md5At (m : List Byte) (s : State) : Prop := AtMessage lenFieldMd5 chainMd5 m s.md5

/-- The SHA-1 engine is at message `m`. -/
def Sha1At (m : List Byte) (s : State) : Prop := AtMessage lenFieldSha1 chainSha1 m s.sha1

/-- The invariant between commands (rule R31): each engine is at some message. -/
def Inv (s : State) : Prop := (∃ m, Md5At m s) ∧ (∃ m, Sha1At m s)

/-- Two engines agree on everything but their transients (rules R33, R158): H, BUF, BUFLEN, LEN and FIN. -/
def sameArch {η ω : Type} (e e' : Engine η ω) : Prop :=
  e.h = e'.h ∧ e.buf = e'.buf ∧ e.len = e'.len ∧ e.fin = e'.fin

/-- The instructions of the MD5 engine. -/
def isMd5 : Instr → Bool
  | .md5Init => true
  | .md5Update _ => true
  | .md5Digest => true
  | .md5Hex => true
  | .sha1Init => false
  | .sha1Update _ => false
  | .sha1Digest => false
  | .sha1Hex => false
  | .md5StepF _ => true
  | .md5StepG _ => true
  | .md5StepH _ => true
  | .md5StepI _ => true
  | .sha1StepP1 _ => false
  | .sha1StepP2 _ => false
  | .sha1StepP3 _ => false
  | .sha1StepP4 _ => false

/-- The eight host commands, as against the step micro-operations (rules R56, R72). -/
def isCommand : Instr → Bool
  | .md5Init => true
  | .md5Update _ => true
  | .md5Digest => true
  | .md5Hex => true
  | .sha1Init => true
  | .sha1Update _ => true
  | .sha1Digest => true
  | .sha1Hex => true
  | .md5StepF _ => false
  | .md5StepG _ => false
  | .md5StepH _ => false
  | .md5StepI _ => false
  | .sha1StepP1 _ => false
  | .sha1StepP2 _ => false
  | .sha1StepP3 _ => false
  | .sha1StepP4 _ => false

/-- The machine after `n` steps. -/
def runSteps (n : Nat) (s : State) : Host.Outcome State Fault Refusal := Sys2Proof.core.run n s

end Sys2Proof.Machine
end

