-- ==== Sys2Proof/Certificates/Slice0/Obligations.lean ====
section
/-! DEFINITION. The statements about the model. Each docstring names the rules of spec/ it formalises. What a
statement quantifies over is every state of the model, reached or not, unless it names a premise. No statement rests on
a value of a transient register after a command answered OK: those are free values (assumption log entry 4), which appear
below as "there are contents", and by name in the one statement that says which commands release them. -/

open Sys2Proof Sys2Proof.Machine

/-! ### Encoding and decoding -/

/-- The eight legal command words and the operand of UPDATE (30_encoding.md section 1, rules R55 to R58). -/
def Obligations.LegalCommandWordsDecode : Prop :=
  ∀ p : Payload,
    decode (.command 0x00 p) = .ok .md5Init ∧ decode (.command 0x01 p) = .ok (.md5Update p) ∧
    decode (.command 0x02 p) = .ok .md5Digest ∧ decode (.command 0x03 p) = .ok .md5Hex ∧
    decode (.command 0x80 p) = .ok .sha1Init ∧ decode (.command 0x81 p) = .ok (.sha1Update p) ∧
    decode (.command 0x82 p) = .ok .sha1Digest ∧ decode (.command 0x83 p) = .ok .sha1Hex

/-- A reserved command word, whatever its payload, is answered ILLEGAL_COMMAND with no data and changes neither engine;
there are exactly 248 such words, and every other word decodes (rules R59, R171). -/
def Obligations.ReservedCommandWordsAnswerIllegalCommand : Prop :=
  (∀ (s : State) (rest : List Request) (cmd : BitVec 8) (p : Payload),
    s.pending = .issue (.command cmd p) :: rest →
    (cmd.extractLsb' 3 4 ≠ 0 ∨ 4 ≤ (cmd.extractLsb' 0 3).toNat) →
    step s = .next { s with pending := rest, responses := s.responses ++ [⟨0x03, []⟩] }) ∧
  ((List.range 256).filter fun n =>
    decide ((BitVec.ofNat 8 n).extractLsb' 3 4 ≠ 0 ∨ 4 ≤ ((BitVec.ofNat 8 n).extractLsb' 0 3).toNat)).length = 248 ∧
  (∀ (cmd : BitVec 8) (p : Payload),
    ¬ (cmd.extractLsb' 3 4 ≠ 0 ∨ 4 ≤ (cmd.extractLsb' 0 3).toNat) → ∃ i, decode (.command cmd p) = .ok i)

/-- Decoding the encoding of a well-formed instruction gives it back, with its payload or step index
(30_encoding.md sections 1 and 4). -/
def Obligations.DecodeOfEncodeIsTheInstruction : Prop :=
  ∀ i : Instr, i.wf = true → decode (encode i) = .ok i

/-- What the decoder reads is well formed, and its encoding is the word it was read from: the same step index, or the
same command word, with the same payload where the operation is UPDATE (30_encoding.md sections 1 and 4). -/
def Obligations.EncodeOfDecodeIsTheWord : Prop :=
  ∀ (w : Issue) (i : Instr), decode w = .ok i →
    i.wf = true ∧
    (∀ j, w = .md5Index j → encode i = w) ∧
    (∀ t, w = .sha1Index t → encode i = w) ∧
    (∀ cmd p, w = .command cmd p →
      ∃ q, encode i = .command cmd q ∧ (cmd.extractLsb' 0 3 = 1 → q = p))

/-- `j[5:4]`, which is `floor(j / 16)`, selects the MD5 step kind, and with `j[1:0] = j mod 4` the rotate amount (rule
R67). -/
def Obligations.Md5StepKindIsSelectedByTheIndex : Prop :=
  ∀ j : BitVec 6,
    (j.extractLsb' 4 2).toNat = j.toNat / 16 ∧ (j.extractLsb' 0 2).toNat = j.toNat % 4 ∧
    (j.toNat < 16 → decode (.md5Index j) = .ok (.md5StepF j)) ∧
    (16 ≤ j.toNat → j.toNat < 32 → decode (.md5Index j) = .ok (.md5StepG j)) ∧
    (32 ≤ j.toNat → j.toNat < 48 → decode (.md5Index j) = .ok (.md5StepH j)) ∧
    (48 ≤ j.toNat → decode (.md5Index j) = .ok (.md5StepI j)) ∧
    md5S j = (romS.getD (4 * (j.extractLsb' 4 2).toNat + (j.extractLsb' 0 2).toNat) 0).toNat

/-- `floor(t / 20)` selects the SHA-1 step kind of each of the eighty steps (rule R68). -/
def Obligations.Sha1StepKindIsSelectedByTheIndex : Prop :=
  ∀ t : BitVec 7,
    (t.toNat < 20 → decode (.sha1Index t) = .ok (.sha1StepP1 t)) ∧
    (20 ≤ t.toNat → t.toNat < 40 → decode (.sha1Index t) = .ok (.sha1StepP2 t)) ∧
    (40 ≤ t.toNat → t.toNat < 60 → decode (.sha1Index t) = .ok (.sha1StepP3 t)) ∧
    (60 ≤ t.toNat → t.toNat < 80 → decode (.sha1Index t) = .ok (.sha1StepP4 t))

/-! ### The step, reset -/

/-- A step on a word that decodes is exec of the instruction, with the request taken off; on an opcode-table word placed
as the next request it is exec at the same state (20_memory.md section 4). How words are presented, and what a table
word stands for, is the model's choice (assumption log entries 5 and 7). -/
def Obligations.StepRunsTheDecodedInstruction : Prop :=
  (∀ (s : State) (w : Issue) (rest : List Request) (i : Instr),
    s.pending = .issue w :: rest → decode w = .ok i → step s = exec i { s with pending := rest }) ∧
  (∀ (s : State) (nbits w : Nat) (i : Instr),
    decodeTableWord nbits w = some i → step (s.withFetchWord nbits w) = exec i s)

/-- With no request presented nothing changes (10_state.md section 1: an engine never acts on its own). -/
def Obligations.IdleMachineKeepsItsState : Prop :=
  ∀ s : State, s.pending = [] → step s = .next s

/-- A hardware reset has INIT's effect on both engines at once and gives no response (70_reset_and_hazards.md
section 1). The transients have some contents. That later requests are still carried out is the model's choice
(assumption log entry 9). -/
def Obligations.HardwareResetInitialisesBothEngines : Prop :=
  ∀ (s : State) (rest : List Request), s.pending = .reset :: rest →
    ∃ work fresh work' fresh',
      step s = .next
        { md5 := { h := ⟨0x67452301, 0xEFCDAB89, 0x98BADCFE, 0x10325476⟩
                   buf := [], len := 0, fin := false, work := work, fresh := fresh }
          sha1 := { h := ⟨0x67452301, 0xEFCDAB89, 0x98BADCFE, 0x10325476, 0xC3D2E1F0⟩
                    buf := [], len := 0, fin := false, work := work', fresh := fresh' }
          pending := rest
          responses := s.responses }

/-- The reset state holds the values of the table of rule R32. -/
def Obligations.ResetStateHoldsTheSpecifiedValues : Prop :=
  State.reset.md5.h = ⟨0x67452301, 0xEFCDAB89, 0x98BADCFE, 0x10325476⟩ ∧
  State.reset.sha1.h = ⟨0x67452301, 0xEFCDAB89, 0x98BADCFE, 0x10325476, 0xC3D2E1F0⟩ ∧
  bufLen State.reset.md5 = 0 ∧ bufLen State.reset.sha1 = 0 ∧
  State.reset.md5.len = 0 ∧ State.reset.sha1.len = 0 ∧
  State.reset.md5.fin = false ∧ State.reset.sha1.fin = false

/-! ### Word operations, byte order, ROM -/

/-- `add32` is addition mod 2^32, with the laws, corner cases and example of rule R80. -/
def Obligations.Add32WrapsModTwoTo32 : Prop :=
  (∀ x y : Word, (add32 x y).toNat = (x.toNat + y.toNat) % 2 ^ 32) ∧
  (∀ x y : Word, add32 x y = add32 y x) ∧
  (∀ x y z : Word, add32 (add32 x y) z = add32 x (add32 y z)) ∧
  (∀ x : Word, add32 x 0 = x) ∧
  add32 0xFFFFFFFF 1 = 0 ∧ add32 0x80000000 0x80000000 = 0 ∧ add32 0x67452301 0xEFCDAB89 = 0x5712CE8A

/-- `rotl32` for amounts 1 to 31: its arithmetic, its bits, its corner cases and example, and the amounts MD5 uses
(rule R81). -/
def Obligations.Rotl32IsTheArithmeticRotation : Prop :=
  (∀ (x : Word) (n : Nat), 1 ≤ n → n ≤ 31 →
    (rotl32 x n).toNat = (x.toNat * 2 ^ n) % 2 ^ 32 + x.toNat / 2 ^ (32 - n) ∧
    (∀ i, i < 32 → (rotl32 x n).getLsbD i = x.getLsbD ((i + (32 - n)) % 32)) ∧
    rotl32 0xFFFFFFFF n = 0xFFFFFFFF ∧ rotl32 0 n = 0) ∧
  rotl32 0x80000000 1 = 0x00000001 ∧ rotl32 0x00000001 31 = 0x80000000 ∧ rotl32 0x12345678 5 = 0x468ACF02 ∧
  (∀ j : BitVec 6, md5S j ∈ [4, 5, 6, 7, 9, 10, 11, 12, 14, 15, 16, 17, 20, 21, 22, 23])

/-- The four MD5 mixing functions, bit by bit, with their corner cases and examples (rules R83 to R86). -/
def Obligations.Md5MixingFunctionsBitByBit : Prop :=
  (∀ (x y z : Word) (i : Nat), i < 32 →
    (mixF x y z).getLsbD i = (if x.getLsbD i then y.getLsbD i else z.getLsbD i) ∧
    (mixG x y z).getLsbD i = (if z.getLsbD i then x.getLsbD i else y.getLsbD i) ∧
    (mixH x y z).getLsbD i = ((x.getLsbD i ^^ y.getLsbD i) ^^ z.getLsbD i) ∧
    (mixI x y z).getLsbD i = (y.getLsbD i ^^ (x.getLsbD i || !z.getLsbD i))) ∧
  (∀ x y z : Word,
    mixF 0 y z = z ∧ mixF 0xFFFFFFFF y z = y ∧
    mixG x y z = mixF z x y ∧ mixG x y 0 = y ∧ mixG x y 0xFFFFFFFF = x ∧
    mixH x x z = z ∧ mixH 0 0 0 = 0 ∧
    mixI x y 0 = ~~~y ∧ mixI 0 y 0xFFFFFFFF = y ∧ mixI 0xFFFFFFFF y z = ~~~y) ∧
  mixF 0xEFCDAB89 0x98BADCFE 0x10325476 = 0x98BADCFE ∧ mixG 0xEFCDAB89 0x98BADCFE 0x10325476 = 0x88888888 ∧
  mixH 0xEFCDAB89 0x98BADCFE 0x10325476 = 0x67452301 ∧ mixI 0xEFCDAB89 0x98BADCFE 0x10325476 = 0x77777777

/-- The four SHA-1 mixing functions, bit by bit, with their corner cases and examples (rules R87 to R90). -/
def Obligations.Sha1MixingFunctionsBitByBit : Prop :=
  (∀ (b c d : Word) (i : Nat), i < 32 →
    (mixF1 b c d).getLsbD i = (if b.getLsbD i then c.getLsbD i else d.getLsbD i) ∧
    (mixF2 b c d).getLsbD i = ((b.getLsbD i ^^ c.getLsbD i) ^^ d.getLsbD i) ∧
    (mixF3 b c d).getLsbD i =
      ((b.getLsbD i && c.getLsbD i) || (b.getLsbD i && d.getLsbD i) || (c.getLsbD i && d.getLsbD i)) ∧
    (mixF4 b c d).getLsbD i = ((b.getLsbD i ^^ c.getLsbD i) ^^ d.getLsbD i)) ∧
  (∀ b c d : Word, mixF1 b c d = mixF b c d ∧ mixF2 b c d = mixH b c d ∧ mixF4 b c d = mixF2 b c d ∧
    mixF3 b b d = b ∧ mixF3 0 c d = c &&& d) ∧
  mixF1 0xEFCDAB89 0x98BADCFE 0x10325476 = 0x98BADCFE ∧ mixF2 0xEFCDAB89 0x98BADCFE 0x10325476 = 0x67452301 ∧
  mixF3 0xEFCDAB89 0x98BADCFE 0x10325476 = 0x98BADCFE ∧ mixF4 0xEFCDAB89 0x98BADCFE 0x10325476 = 0x67452301

/-- Little-endian and big-endian words of four bytes, the byte sequences of a word, and that they are inverse (rules
R39, R40). -/
def Obligations.WordByteOrder : Prop :=
  (∀ b0 b1 b2 b3 : Byte,
    (le32 [b0, b1, b2, b3]).toNat = b0.toNat + 256 * b1.toNat + 65536 * b2.toNat + 16777216 * b3.toNat ∧
    (be32 [b0, b1, b2, b3]).toNat = 16777216 * b0.toNat + 65536 * b1.toNat + 256 * b2.toNat + b3.toNat ∧
    le32bytes (le32 [b0, b1, b2, b3]) = [b0, b1, b2, b3] ∧ be32bytes (be32 [b0, b1, b2, b3]) = [b0, b1, b2, b3]) ∧
  (∀ w : Word,
    le32bytes w = [w.extractLsb' 0 8, w.extractLsb' 8 8, w.extractLsb' 16 8, w.extractLsb' 24 8] ∧
    be32bytes w = [w.extractLsb' 24 8, w.extractLsb' 16 8, w.extractLsb' 8 8, w.extractLsb' 0 8] ∧
    le32 (le32bytes w) = w ∧ be32 (be32bytes w) = w) ∧
  le32 [0x61, 0x62, 0x63, 0x80] = 0x80636261 ∧ be32 [0x61, 0x62, 0x63, 0x80] = 0x61626380

/-- The 8-byte sequences of a 64-bit value and the length field of each engine (rules R41, R64, R99, R100). -/
def Obligations.LengthFieldBytes : Prop :=
  (∀ v : BitVec 64, (le64bytes v).length = 8 ∧ (be64bytes v).length = 8 ∧
    ∀ i, i < 8 → (le64bytes v)[i]? = some (v.extractLsb' (8 * i) 8) ∧
      (be64bytes v)[i]? = some (v.extractLsb' (56 - 8 * i) 8)) ∧
  (∀ len : BitVec 64, (bitlen len).toNat = (8 * len.toNat) % 2 ^ 64 ∧
    (len.toNat ≤ 2 ^ 61 - 1 → (bitlen len).toNat = 8 * len.toNat) ∧
    lenFieldMd5 len = le64bytes (bitlen len) ∧ lenFieldSha1 len = be64bytes (bitlen len)) ∧
  lenFieldMd5 3 = [0x18, 0, 0, 0, 0, 0, 0, 0] ∧ lenFieldSha1 3 = [0, 0, 0, 0, 0, 0, 0, 0x18] ∧
  lenFieldMd5 56 = [0xC0, 0x01, 0, 0, 0, 0, 0, 0] ∧ lenFieldSha1 56 = [0, 0, 0, 0, 0, 0, 0x01, 0xC0]

/-- The MD5 word index and rotate tables (rules R110, R111), and the SHA-1 phase constants (rule R131). -/
def Obligations.RomTables : Prop :=
  (∀ j : BitVec 6,
    (j.toNat / 16 = 0 → (md5G j).toNat = j.toNat) ∧
    (j.toNat / 16 = 1 → (md5G j).toNat = (5 * j.toNat + 1) % 16) ∧
    (j.toNat / 16 = 2 → (md5G j).toNat = (3 * j.toNat + 5) % 16) ∧
    (j.toNat / 16 = 3 → (md5G j).toNat = (7 * j.toNat) % 16) ∧
    md5S j =
      (([[7, 12, 17, 22], [5, 9, 14, 20], [4, 11, 16, 23], [6, 10, 15, 21]].getD (j.toNat / 16) []).getD
        (j.toNat % 4) 0) ∧
    4 ≤ md5S j ∧ md5S j ≤ 23) ∧
  (∀ p : Fin 4, ∀ k : BitVec 4, ∃ i : Fin 16, md5G (BitVec.ofNat 6 (16 * p.val + i.val)) = k ∧
    ∀ i' : Fin 16, md5G (BitVec.ofNat 6 (16 * p.val + i'.val)) = k → i' = i) ∧
  (List.range 4).map sha1K = [0x5A827999, 0x6ED9EBA1, 0x8F1BBCDC, 0xCA62C1D6]

/-- The 64 rows of the MD5 ROM, as the table of rule R112 lists them: for each step its phase index, word index, rotate
amount and constant. The four values are the whole of what differs between steps (rule R69). -/
def Obligations.Md5RomRows : Prop :=
  (List.range 64).map (fun n =>
      let j := BitVec.ofNat 6 n
      (j.toNat / 16, (md5G j).toNat, md5S j, md5T j)) =
    [(0, 0, 7, 0xD76AA478), (0, 1, 12, 0xE8C7B756), (0, 2, 17, 0x242070DB), (0, 3, 22, 0xC1BDCEEE),
     (0, 4, 7, 0xF57C0FAF), (0, 5, 12, 0x4787C62A), (0, 6, 17, 0xA8304613), (0, 7, 22, 0xFD469501),
     (0, 8, 7, 0x698098D8), (0, 9, 12, 0x8B44F7AF), (0, 10, 17, 0xFFFF5BB1), (0, 11, 22, 0x895CD7BE),
     (0, 12, 7, 0x6B901122), (0, 13, 12, 0xFD987193), (0, 14, 17, 0xA679438E), (0, 15, 22, 0x49B40821)] ++
    [(1, 1, 5, 0xF61E2562), (1, 6, 9, 0xC040B340), (1, 11, 14, 0x265E5A51), (1, 0, 20, 0xE9B6C7AA),
     (1, 5, 5, 0xD62F105D), (1, 10, 9, 0x02441453), (1, 15, 14, 0xD8A1E681), (1, 4, 20, 0xE7D3FBC8),
     (1, 9, 5, 0x21E1CDE6), (1, 14, 9, 0xC33707D6), (1, 3, 14, 0xF4D50D87), (1, 8, 20, 0x455A14ED),
     (1, 13, 5, 0xA9E3E905), (1, 2, 9, 0xFCEFA3F8), (1, 7, 14, 0x676F02D9), (1, 12, 20, 0x8D2A4C8A)] ++
    [(2, 5, 4, 0xFFFA3942), (2, 8, 11, 0x8771F681), (2, 11, 16, 0x6D9D6122), (2, 14, 23, 0xFDE5380C),
     (2, 1, 4, 0xA4BEEA44), (2, 4, 11, 0x4BDECFA9), (2, 7, 16, 0xF6BB4B60), (2, 10, 23, 0xBEBFBC70),
     (2, 13, 4, 0x289B7EC6), (2, 0, 11, 0xEAA127FA), (2, 3, 16, 0xD4EF3085), (2, 6, 23, 0x04881D05),
     (2, 9, 4, 0xD9D4D039), (2, 12, 11, 0xE6DB99E5), (2, 15, 16, 0x1FA27CF8), (2, 2, 23, 0xC4AC5665)] ++
    [(3, 0, 6, 0xF4292244), (3, 7, 10, 0x432AFF97), (3, 14, 15, 0xAB9423A7), (3, 5, 21, 0xFC93A039),
     (3, 12, 6, 0x655B59C3), (3, 3, 10, 0x8F0CCC92), (3, 10, 15, 0xFFEFF47D), (3, 1, 21, 0x85845DD1),
     (3, 8, 6, 0x6FA87E4F), (3, 15, 10, 0xFE2CE6E0), (3, 6, 15, 0xA3014314), (3, 13, 21, 0x4E0811A1),
     (3, 4, 6, 0xF7537E82), (3, 11, 10, 0xBD3AF235), (3, 2, 15, 0x2AD7D2BB), (3, 9, 21, 0xEB86D391)]

/-! ### Step micro-operations -/

/-- The result of each MD5 step kind on every one of its sixteen steps, whole: the working variables, temp and the step
counter take the values of rule R113 with the phase's function (rules R114 to R117), nothing else of the machine
changes, and no error or response arises. -/
def Obligations.Md5StepResults : Prop :=
  ∀ (s : State) (j : BitVec 6),
    let w := s.md5.work
    let result (fn : Word → Word → Word → Word) : Host.Outcome State Fault Refusal :=
      let temp := rotl32 (w.a + fn w.b w.c w.d + w.x.get (md5G j).toFin + md5T j) (md5S j)
      .next { s with md5 := { s.md5 with work :=
        { w with temp := temp, a := w.d, b := w.b + temp, c := w.b, d := w.c,
                 j := ⟨j.toNat + 1, Nat.succ_lt_succ j.isLt⟩ } } }
    (j.toNat < 16 → exec (.md5StepF j) s = result fun b c d => (b &&& c) ||| (~~~b &&& d)) ∧
    (16 ≤ j.toNat → j.toNat < 32 → exec (.md5StepG j) s = result fun b c d => (b &&& d) ||| (c &&& ~~~d)) ∧
    (32 ≤ j.toNat → j.toNat < 48 → exec (.md5StepH j) s = result fun b c d => b ^^^ c ^^^ d) ∧
    (48 ≤ j.toNat → exec (.md5StepI j) s = result fun b c d => c ^^^ (b ||| ~~~d))

/-- The result of each SHA-1 step kind on every one of its twenty steps, whole: the working variables, temp, f, k and the
step counter take the values of rule R132 with the phase's function and constant (rules R133 to R136), nothing else of
the machine changes, and no error or response arises. -/
def Obligations.Sha1StepResults : Prop :=
  ∀ (s : State) (t : BitVec 7) (ht : t.toNat < 80),
    let w := s.sha1.work
    let result (fn : Word → Word → Word → Word) (k : Word) : Host.Outcome State Fault Refusal :=
      let f := fn w.b w.c w.d
      let temp := rotl32 w.a 5 + f + w.e + k + w.w[t.toNat]
      .next { s with sha1 := { s.sha1 with work :=
        { w with f := f, k := k, temp := temp, a := temp, b := w.a, c := rotl32 w.b 30, d := w.c, e := w.d,
                 t := ⟨t.toNat + 1, Nat.succ_lt_succ ht⟩ } } }
    (t.toNat < 20 →
      exec (.sha1StepP1 t) s = result (fun b c d => (b &&& c) ||| (~~~b &&& d)) 0x5A827999) ∧
    (20 ≤ t.toNat → t.toNat < 40 →
      exec (.sha1StepP2 t) s = result (fun b c d => b ^^^ c ^^^ d) 0x6ED9EBA1) ∧
    (40 ≤ t.toNat → t.toNat < 60 →
      exec (.sha1StepP3 t) s = result (fun b c d => (b &&& c) ||| (b &&& d) ||| (c &&& d)) 0x8F1BBCDC) ∧
    (60 ≤ t.toNat → exec (.sha1StepP4 t) s = result (fun b c d => b ^^^ c ^^^ d) 0xCA62C1D6)

/-- A micro-operation with a step index outside its phase, which no word decodes to (rules R67, R68), stops; so does a
step on a SHA-1 index of 80 or more, which the sequencer never issues (rule R26). The stop is the model's choice
(assumption log entry 6). -/
def Obligations.MicroOpsOutsideTheirPhaseStop : Prop :=
  (∀ (s : State) (j : BitVec 6),
    (j.toNat / 16 ≠ 0 → exec (.md5StepF j) s = .fault .noSuchStep) ∧
    (j.toNat / 16 ≠ 1 → exec (.md5StepG j) s = .fault .noSuchStep) ∧
    (j.toNat / 16 ≠ 2 → exec (.md5StepH j) s = .fault .noSuchStep) ∧
    (j.toNat / 16 ≠ 3 → exec (.md5StepI j) s = .fault .noSuchStep)) ∧
  (∀ (s : State) (t : BitVec 7),
    (t.toNat / 20 ≠ 0 → exec (.sha1StepP1 t) s = .fault .noSuchStep) ∧
    (t.toNat / 20 ≠ 1 → exec (.sha1StepP2 t) s = .fault .noSuchStep) ∧
    (t.toNat / 20 ≠ 2 → exec (.sha1StepP3 t) s = .fault .noSuchStep) ∧
    (t.toNat / 20 ≠ 3 → exec (.sha1StepP4 t) s = .fault .noSuchStep)) ∧
  (∀ (s : State) (t : BitVec 7) (rest : List Request),
    s.pending = .issue (.sha1Index t) :: rest → 80 ≤ t.toNat →
    decode (.sha1Index t) = .error .noSuchStep ∧ step s = .fault .noSuchStep)

/-! ### Compression -/

/-- A compression on the MD5 engine, run by its sequencer on the transient registers, replaces H by Compress_MD5 of H
and the block, whatever the transients held before, and changes nothing else but transients (rules R106, R121). -/
def Obligations.Md5CompressionIsTheSpecifiedFunction : Prop :=
  ∀ (e : Engine Md5H Md5Work) (blk : Block),
    ∃ work, md5Compress e blk = { e with h := compressMd5 e.h blk, work := work }

/-- A compression on the SHA-1 engine replaces H by Compress_SHA1 of H and the block, whatever the transients held
before, and changes nothing else but transients (rules R126, R140). -/
def Obligations.Sha1CompressionIsTheSpecifiedFunction : Prop :=
  ∀ (e : Engine Sha1H Sha1Work) (blk : Block),
    ∃ work, sha1Compress e blk = { e with h := compressSha1 e.h blk, work := work }

/-- The MD5 steps as machine steps: from a loaded block and started working variables, the sixty-four micro-operations,
each decoded from its step index and executed by its own step, leave working variables whose feed-forward is
Compress_MD5, with the counter at 64; H, BUF, LEN, FIN, the block words, the SHA-1 engine and the responses are as they
were (42_md5_compress.md sections 3 and 4). That step indexes can be presented as requests is the model's choice
(assumption log entry 11). -/
def Obligations.Md5MicroOpsRunACompression : Prop :=
  ∀ (s : State) (blk : Block) (w : Md5Work) (rest : List Request),
    s.md5.work = md5Start s.md5.h (md5Load blk w) → s.pending = md5StepRequests ++ rest →
    ∃ work,
      runSteps 64 s = .next { s with md5 := { s.md5 with work := work }, pending := rest } ∧
      md5Feed s.md5.h work = compressMd5 s.md5.h blk ∧ work.j = 64 ∧ work.x = s.md5.work.x ∧
      work.blk = blk ∧ work.pad = w.pad

/-- The SHA-1 steps as machine steps, as for MD5 (43_sha1_compress.md sections 2 to 4; assumption log entry
11). -/
def Obligations.Sha1MicroOpsRunACompression : Prop :=
  ∀ (s : State) (blk : Block) (w : Sha1Work) (rest : List Request),
    s.sha1.work = sha1Start s.sha1.h (sha1Load blk w) → s.pending = sha1StepRequests ++ rest →
    ∃ work,
      runSteps 80 s = .next { s with sha1 := { s.sha1 with work := work }, pending := rest } ∧
      sha1Feed s.sha1.h work = compressSha1 s.sha1.h blk ∧ work.t = 80 ∧ work.w = s.sha1.work.w ∧
      work.blk = blk ∧ work.pad = w.pad

/-- The block words of both engines (rules R42, R107, R127) and the SHA-1 schedule recurrence (rule R128), whatever the
schedule held before. -/
def Obligations.BlockWordsAndSchedule : Prop :=
  (∀ (blk : Block) (w : Md5Work) (k : Fin 16),
    ((md5Load blk w).x.get k) =
      le32 [blk[4 * k.val], blk[4 * k.val + 1], blk[4 * k.val + 2], blk[4 * k.val + 3]]) ∧
  (∀ (blk : Block) (w : Sha1Work),
    let W := (sha1Load blk w).w.toList
    (∀ k : Fin 16, W[k.val]? =
      some (be32 [blk[4 * k.val], blk[4 * k.val + 1], blk[4 * k.val + 2], blk[4 * k.val + 3]])) ∧
    (∀ i, 16 ≤ i → i < 80 →
      W[i]? = some (rotl32 (W.getD (i - 3) 0 ^^^ W.getD (i - 8) 0 ^^^ W.getD (i - 14) 0 ^^^ W.getD (i - 16) 0) 1)) ∧
    (blk = Vector.replicate 64 0 → W = List.replicate 80 0))

/-! ### Padding -/

/-- The layout of the padded tail for every tail length 0 to 63 and both engines, whatever PAD held before (rules R63,
R97, R98). -/
def Obligations.PaddedTailLayout : Prop :=
  ∀ (buf : List Byte) (len : BitVec 64) (pad : PadSpace) (field : BitVec 64 → List Byte),
    (field = lenFieldMd5 ∨ field = lenFieldSha1) → buf.length ≤ 63 →
    let r := buf.length
    let n := padLen r
    let p := (padTail field buf len pad).toList
    (r ≤ 55 → n = 64) ∧ (56 ≤ r → n = 128) ∧
    (∀ i, i < r → p[i]? = buf[i]?) ∧ p[r]? = some 0x80 ∧
    (∀ o, r < o → o < n - 8 → p[o]? = some 0x00) ∧
    (∀ i, i < 8 → p[n - 8 + i]? = (field len)[i]?) ∧
    (r = 0 → n - 9 - r = 55) ∧ (r = 55 → n - 9 - r = 0) ∧ (r = 56 → n - 9 - r = 63) ∧ (r = 63 → n - 9 - r = 56)

/-- The padded tail of a message's tail is the end of the padded message, whose earlier bytes are the message's own
complete blocks; and the number of zero bytes is the least that fits (rule R105). -/
def Obligations.PaddedTailIsTheEndOfThePaddedMessage : Prop :=
  ∀ (m : List Byte) (pad : PadSpace) (field : BitVec 64 → List Byte),
    (field = lenFieldMd5 ∨ field = lenFieldSha1) →
    let done := 64 * (m.length / 64)
    memRead (padTail field (tailOf m) (BitVec.ofNat 64 m.length) pad) 0 (padLen (tailOf m).length) =
      (padMessage field m).drop done ∧
    (padMessage field m).take done = m.take done ∧
    (m.length + 1 + padZeros m.length) % 64 = 56 ∧
    (∀ z, (m.length + 1 + z) % 64 = 56 → padZeros m.length ≤ z)

/-- A message of `L` bytes is padded to `floor((L + 8) / 64) + 1` blocks, of which `floor(L / 64)` are its own complete
blocks and one or two are padding (41_padding.md, rule R104). -/
def Obligations.PaddedMessageBlockCount : Prop :=
  ∀ (m : List Byte) (field : BitVec 64 → List Byte), (field = lenFieldMd5 ∨ field = lenFieldSha1) →
    (padMessage field m).length = 64 * ((m.length + 8) / 64 + 1) ∧
    (padMessage field m).length = 64 * (m.length / 64) + padLen (tailOf m).length

/-! ### Commands -/

/-- INIT, whole, from every state: H takes the initial constants, BUFLEN, LEN and FIN are cleared, the response is OK
without data, and nothing else of the machine changes; the transients have some contents (rules R146, R150). -/
def Obligations.InitResult : Prop :=
  ∀ s : State,
    (∃ work fresh, exec .md5Init s = .next { s with
      md5 := { h := ⟨0x67452301, 0xEFCDAB89, 0x98BADCFE, 0x10325476⟩
               buf := [], len := 0, fin := false, work := work, fresh := fresh }
      responses := s.responses ++ [⟨0x00, []⟩] }) ∧
    (∃ work fresh, exec .sha1Init s = .next { s with
      sha1 := { h := ⟨0x67452301, 0xEFCDAB89, 0x98BADCFE, 0x10325476, 0xC3D2E1F0⟩
                buf := [], len := 0, fin := false, work := work, fresh := fresh }
      responses := s.responses ++ [⟨0x00, []⟩] })

/-- The transients after a command of any kind. Where it is answered OK, those of its engine are the free values of the
engine's next release, so nothing a transient held before is kept, and nothing of a compression is left over, even where
none was run (rules R33, R141, entry U4: "after reset and after every command"). Where it is answered with an error, the
whole engine is as it was (rules R168, R174). That the free values are taken by a counter of releases is the model's
choice (assumption log entry 4). -/
def Obligations.CompletedCommandsReleaseTheTransients : Prop :=
  ∀ (i : Instr) (s t : State), isCommand i = true → exec i s = .next t →
    ∃ r, t.responses = s.responses ++ [r] ∧
      (isMd5 i = true →
        (r.status = 0x00 → t.md5.work = md5Free s.md5.fresh ∧ t.md5.fresh = s.md5.fresh + 1) ∧
        (r.status ≠ 0x00 → t.md5 = s.md5)) ∧
      (isMd5 i = false →
        (r.status = 0x00 → t.sha1.work = sha1Free s.sha1.fresh ∧ t.sha1.fresh = s.sha1.fresh + 1) ∧
        (r.status ≠ 0x00 → t.sha1 = s.sha1))

/-- MD5.UPDATE, whole (rule R147, with Absorb of rule R154). A payload that is no byte sequence is answered
INVALID_INPUT, then a byte sequence to a finalised engine FINALIZED_STATE, and the response is the whole effect. Else,
within MAX_MSG: every complete block of tail and payload is compressed in order, the rest is the new tail, LEN grows by
the payload's length, FIN stays 0, the response is OK without data, and nothing else changes but transients; an empty
payload changes nothing but transients. -/
def Obligations.Md5UpdateResult : Prop :=
  ∀ s : State,
    exec (.md5Update .notBytes) s = .next { s with responses := s.responses ++ [⟨0x01, []⟩] } ∧
    ∀ data : List Byte,
      (s.md5.fin = true →
        exec (.md5Update (.bytes data)) s = .next { s with responses := s.responses ++ [⟨0x02, []⟩] }) ∧
      (s.md5.fin = false → s.md5.buf.length ≤ 63 → s.md5.len.toNat + data.length ≤ 2 ^ 61 - 1 →
        let stream := s.md5.buf ++ data
        let nblk := (s.md5.buf.length + data.length) / 64
        ∃ e, exec (.md5Update (.bytes data)) s =
            .next { s with md5 := e, responses := s.responses ++ [⟨0x00, []⟩] } ∧
          e.h = (blocksOf nblk stream).foldl compressMd5 s.md5.h ∧
          e.buf = stream.drop (64 * nblk) ∧ bufLen e = (s.md5.buf.length + data.length) % 64 ∧
          e.len.toNat = s.md5.len.toNat + data.length ∧ e.fin = false ∧
          (data = [] → sameArch s.md5 e))

/-- SHA1.UPDATE, whole, as MD5.UPDATE (rule R151, with Absorb of rule R154). -/
def Obligations.Sha1UpdateResult : Prop :=
  ∀ s : State,
    exec (.sha1Update .notBytes) s = .next { s with responses := s.responses ++ [⟨0x01, []⟩] } ∧
    ∀ data : List Byte,
      (s.sha1.fin = true →
        exec (.sha1Update (.bytes data)) s = .next { s with responses := s.responses ++ [⟨0x02, []⟩] }) ∧
      (s.sha1.fin = false → s.sha1.buf.length ≤ 63 → s.sha1.len.toNat + data.length ≤ 2 ^ 61 - 1 →
        let stream := s.sha1.buf ++ data
        let nblk := (s.sha1.buf.length + data.length) / 64
        ∃ e, exec (.sha1Update (.bytes data)) s =
            .next { s with sha1 := e, responses := s.responses ++ [⟨0x00, []⟩] } ∧
          e.h = (blocksOf nblk stream).foldl compressSha1 s.sha1.h ∧
          e.buf = stream.drop (64 * nblk) ∧ bufLen e = (s.sha1.buf.length + data.length) % 64 ∧
          e.len.toNat = s.sha1.len.toNat + data.length ∧ e.fin = false ∧
          (data = [] → sameArch s.sha1 e))

/-- The errors of UPDATE and their order: a payload that is not a byte sequence is answered INVALID_INPUT whatever FIN
is; a byte sequence to a finalised engine, an empty one too, is answered FINALIZED_STATE; the response is the whole
effect (60_exceptions.md section 1, rules R168 to R170, R172). -/
def Obligations.UpdateErrors : Prop :=
  ∀ s : State,
    exec (.md5Update .notBytes) s = .next { s with responses := s.responses ++ [⟨0x01, []⟩] } ∧
    exec (.sha1Update .notBytes) s = .next { s with responses := s.responses ++ [⟨0x01, []⟩] } ∧
    (s.md5.fin = true → ∀ data,
      exec (.md5Update (.bytes data)) s = .next { s with responses := s.responses ++ [⟨0x02, []⟩] }) ∧
    (s.sha1.fin = true → ∀ data,
      exec (.sha1Update (.bytes data)) s = .next { s with responses := s.responses ++ [⟨0x02, []⟩] })

/-- An UPDATE that would take LEN above MAX_MSG, and that no error check stops, is refused
(93_implementation_defined.md entry U3; 60_exceptions.md rule R181 (f)). -/
def Obligations.UpdateOverTheLongestMessageIsRefused : Prop :=
  ∀ (s : State) (data : List Byte),
    (s.md5.fin = false → 2 ^ 61 - 1 < s.md5.len.toNat + data.length →
      exec (.md5Update (.bytes data)) s = .refused .messageTooLong) ∧
    (s.sha1.fin = false → 2 ^ 61 - 1 < s.sha1.len.toNat + data.length →
      exec (.sha1Update (.bytes data)) s = .refused .messageTooLong)

/-- MD5.DIGEST and MD5.HEX, whole. With FIN = 0: H takes in the blocks of the padded tail, BUFLEN is 0, FIN is 1, LEN
stays, and the response is OK with the digest of H or its hex form. With FIN = 1: H, BUF, LEN and FIN stay and the
response is again that of H. Nothing else changes but transients, which after each command have some contents of their
own (rules R103, R148, R149). -/
def Obligations.Md5DigestAndHexResult : Prop :=
  ∀ s : State, s.md5.buf.length ≤ 63 →
    (s.md5.fin = false →
      let r := s.md5.buf.length
      let padded := s.md5.buf ++ [0x80] ++ List.replicate (padLen r - 9 - r) 0 ++ lenFieldMd5 s.md5.len
      let h := (blocksOf (padLen r / 64) padded).foldl compressMd5 s.md5.h
      (∃ work fresh, exec .md5Digest s = .next { s with
        md5 := { h := h, buf := [], len := s.md5.len, fin := true, work := work, fresh := fresh }
        responses := s.responses ++ [⟨0x00, digestMd5 h⟩] }) ∧
      (∃ work fresh, exec .md5Hex s = .next { s with
        md5 := { h := h, buf := [], len := s.md5.len, fin := true, work := work, fresh := fresh }
        responses := s.responses ++ [⟨0x00, hexEncode (digestMd5 h)⟩] })) ∧
    (s.md5.fin = true →
      (∃ work fresh, exec .md5Digest s = .next { s with
        md5 := { s.md5 with work := work, fresh := fresh }
        responses := s.responses ++ [⟨0x00, digestMd5 s.md5.h⟩] }) ∧
      (∃ work fresh, exec .md5Hex s = .next { s with
        md5 := { s.md5 with work := work, fresh := fresh }
        responses := s.responses ++ [⟨0x00, hexEncode (digestMd5 s.md5.h)⟩] }))

/-- SHA1.DIGEST and SHA1.HEX, as for MD5 (rules R103, R152, R153). -/
def Obligations.Sha1DigestAndHexResult : Prop :=
  ∀ s : State, s.sha1.buf.length ≤ 63 →
    (s.sha1.fin = false →
      let r := s.sha1.buf.length
      let padded := s.sha1.buf ++ [0x80] ++ List.replicate (padLen r - 9 - r) 0 ++ lenFieldSha1 s.sha1.len
      let h := (blocksOf (padLen r / 64) padded).foldl compressSha1 s.sha1.h
      (∃ work fresh, exec .sha1Digest s = .next { s with
        sha1 := { h := h, buf := [], len := s.sha1.len, fin := true, work := work, fresh := fresh }
        responses := s.responses ++ [⟨0x00, digestSha1 h⟩] }) ∧
      (∃ work fresh, exec .sha1Hex s = .next { s with
        sha1 := { h := h, buf := [], len := s.sha1.len, fin := true, work := work, fresh := fresh }
        responses := s.responses ++ [⟨0x00, hexEncode (digestSha1 h)⟩] })) ∧
    (s.sha1.fin = true →
      (∃ work fresh, exec .sha1Digest s = .next { s with
        sha1 := { s.sha1 with work := work, fresh := fresh }
        responses := s.responses ++ [⟨0x00, digestSha1 s.sha1.h⟩] }) ∧
      (∃ work fresh, exec .sha1Hex s = .next { s with
        sha1 := { s.sha1 with work := work, fresh := fresh }
        responses := s.responses ++ [⟨0x00, hexEncode (digestSha1 s.sha1.h)⟩] }))

/-- The digest is the state words in index order, MD5's little-endian and SHA-1's big-endian (rules R119, R138), with
the examples of those rules. -/
def Obligations.DigestSerialisation : Prop :=
  (∀ a b c d : Word, digestMd5 ⟨a, b, c, d⟩ = le32bytes a ++ le32bytes b ++ le32bytes c ++ le32bytes d) ∧
  (∀ h0 h1 h2 h3 h4 : Word, digestSha1 ⟨h0, h1, h2, h3, h4⟩ =
    be32bytes h0 ++ be32bytes h1 ++ be32bytes h2 ++ be32bytes h3 ++ be32bytes h4) ∧
  digestMd5 ⟨0xD98C1DD4, 0x04B2008F, 0x980980E9, 0x7E42F8EC⟩ =
    [0xd4, 0x1d, 0x8c, 0xd9, 0x8f, 0x00, 0xb2, 0x04, 0xe9, 0x80, 0x09, 0x98, 0xec, 0xf8, 0x42, 0x7e] ∧
  digestSha1 ⟨0xA9993E36, 0x4706816A, 0xBA3E2571, 0x7850C26C, 0x9CD0D89D⟩ =
    [0xa9, 0x99, 0x3e, 0x36, 0x47, 0x06, 0x81, 0x6a, 0xba, 0x3e, 0x25, 0x71, 0x78, 0x50, 0xc2, 0x6c, 0x9c, 0xd0,
     0xd8, 0x9d]

/-- HexEncode gives two characters a byte, high nibble first, each the ASCII code of a lower-case hex digit (rule
R159). -/
def Obligations.HexEncodeGivesTwoDigitsPerByte : Prop :=
  (∀ (d : List Byte), (hexEncode d).length = 2 * d.length ∧
    ∀ (i : Nat) (hi : i < d.length),
      (hexEncode d)[2 * i]? = some (hexDigit (d[i].extractLsb' 4 4)) ∧
      (hexEncode d)[2 * i + 1]? = some (hexDigit (d[i].extractLsb' 0 4))) ∧
  (∀ v : BitVec 4, (v.toNat ≤ 9 → (hexDigit v).toNat = 0x30 + v.toNat) ∧
    (10 ≤ v.toNat → (hexDigit v).toNat = 0x61 + (v.toNat - 10))) ∧
  hexEncode [0xd4, 0x1d] = [0x64, 0x34, 0x31, 0x64]

/-- From every state, DIGEST answers exactly 16 or 20 bytes and HEX exactly 32 or 40 (rule R156). -/
def Obligations.DigestLengths : Prop :=
  ∀ s : State,
    (∃ t d, exec .md5Digest s = .next t ∧ t.responses = s.responses ++ [⟨0x00, d⟩] ∧ d.length = 16) ∧
    (∃ t d, exec .sha1Digest s = .next t ∧ t.responses = s.responses ++ [⟨0x00, d⟩] ∧ d.length = 20) ∧
    (∃ t d, exec .md5Hex s = .next t ∧ t.responses = s.responses ++ [⟨0x00, d⟩] ∧ d.length = 32) ∧
    (∃ t d, exec .sha1Hex s = .next t ∧ t.responses = s.responses ++ [⟨0x00, d⟩] ∧ d.length = 40)

/-- For the same state the data of HEX is HexEncode of the data of DIGEST, and both leave the same H, BUF, LEN and FIN and
the same other engine (rule R157). -/
def Obligations.HexIsHexEncodeOfDigest : Prop :=
  ∀ s : State,
    (∃ t u d, exec .md5Digest s = .next t ∧ exec .md5Hex s = .next u ∧
      t.responses = s.responses ++ [⟨0x00, d⟩] ∧ u.responses = s.responses ++ [⟨0x00, hexEncode d⟩] ∧
      sameArch t.md5 u.md5 ∧ u.sha1 = t.sha1) ∧
    (∃ t u d, exec .sha1Digest s = .next t ∧ exec .sha1Hex s = .next u ∧
      t.responses = s.responses ++ [⟨0x00, d⟩] ∧ u.responses = s.responses ++ [⟨0x00, hexEncode d⟩] ∧
      u.md5 = t.md5 ∧ sameArch t.sha1 u.sha1)

/-! ### Whole messages and whole-machine rules -/

/-- Streaming equivalence, by machine steps from any state: however a message is split into chunks, INIT and the
UPDATEs leave LEN, BUFLEN, the tail and H as functions of the message alone, and DIGEST then answers MD5(M) or SHA1(M)
(rules R122, R142, R155). -/
def Obligations.StreamingEquivalence : Prop :=
  ∀ (s : State) (chunks : List (List Byte)) (rest : List Request),
    chunks.flatten.length ≤ 2 ^ 61 - 1 →
    (s.pending = md5Feeding chunks ++ requestOf .md5Digest :: rest →
      ∃ t u, runSteps (chunks.length + 1) s = .next t ∧
        t.md5.len.toNat = chunks.flatten.length ∧ bufLen t.md5 = chunks.flatten.length % 64 ∧
        t.md5.buf = tailOf chunks.flatten ∧ t.md5.h = chainMd5 chunks.flatten ∧ t.md5.fin = false ∧
        t.sha1 = s.sha1 ∧ t.responses = s.responses ++ List.replicate (chunks.length + 1) ⟨0x00, []⟩ ∧
        step t = .next u ∧ u.pending = rest ∧
        u.responses = t.responses ++ [⟨0x00, md5Message chunks.flatten⟩]) ∧
    (s.pending = sha1Feeding chunks ++ requestOf .sha1Digest :: rest →
      ∃ t u, runSteps (chunks.length + 1) s = .next t ∧
        t.sha1.len.toNat = chunks.flatten.length ∧ bufLen t.sha1 = chunks.flatten.length % 64 ∧
        t.sha1.buf = tailOf chunks.flatten ∧ t.sha1.h = chainSha1 chunks.flatten ∧ t.sha1.fin = false ∧
        t.md5 = s.md5 ∧ t.responses = s.responses ++ List.replicate (chunks.length + 1) ⟨0x00, []⟩ ∧
        step t = .next u ∧ u.pending = rest ∧
        u.responses = t.responses ++ [⟨0x00, sha1Message chunks.flatten⟩])

/-- The reset state meets the invariant of rule R31: both engines are at the empty message. -/
def Obligations.ResetMeetsTheInvariant : Prop :=
  Md5At [] State.reset ∧ Sha1At [] State.reset ∧ Inv State.reset

/-- The invariant of rule R31 holds after reset, is kept by every step that gives a next state, and gives all that rule
lists: (a) BUFLEN is at most 63; (b) with FIN = 0, BUFLEN = LEN mod 64 and H is what `floor(LEN / 64)` compressed blocks
made of the initial state; (c) with FIN = 1, BUFLEN is 0 and H holds the digest words of a message of LEN bytes; (d) LEN
is at most MAX_MSG. -/
def Obligations.StepKeepsTheInvariant : Prop :=
  Inv State.reset ∧
  (∀ s t : State, Inv s → step s = .next t → Inv t) ∧
  (∀ s : State, Inv s →
    bufLen s.md5 ≤ 63 ∧ bufLen s.sha1 ≤ 63 ∧
    (s.md5.fin = false → bufLen s.md5 = s.md5.len.toNat % 64 ∧
      ∃ bs : List Block, bs.length = s.md5.len.toNat / 64 ∧ s.md5.h = bs.foldl compressMd5 ivMd5) ∧
    (s.sha1.fin = false → bufLen s.sha1 = s.sha1.len.toNat % 64 ∧
      ∃ bs : List Block, bs.length = s.sha1.len.toNat / 64 ∧ s.sha1.h = bs.foldl compressSha1 ivSha1) ∧
    (s.md5.fin = true → bufLen s.md5 = 0 ∧
      ∃ m, m.length = s.md5.len.toNat ∧ digestMd5 s.md5.h = md5Message m) ∧
    (s.sha1.fin = true → bufLen s.sha1 = 0 ∧
      ∃ m, m.length = s.sha1.len.toNat ∧ digestSha1 s.sha1.h = sha1Message m) ∧
    s.md5.len.toNat ≤ 2 ^ 61 - 1 ∧ s.sha1.len.toNat ≤ 2 ^ 61 - 1)

/-- An engine at a message `m` moves with the commands: INIT puts it at the empty message, UPDATE of `d` before
finalisation at `m` followed by `d`, DIGEST and HEX answer the digest of `m` and leave it at `m`, finalised
(10_state.md section 7, 44_commands.md sections 2 and 3). -/
def Obligations.CommandsMoveTheMessage : Prop :=
  ∀ (s t : State) (m d : List Byte),
    (exec .md5Init s = .next t → Md5At [] t ∧ t.md5.fin = false) ∧
    (exec .sha1Init s = .next t → Sha1At [] t ∧ t.sha1.fin = false) ∧
    (Md5At m s → s.md5.fin = false → exec (.md5Update (.bytes d)) s = .next t →
      Md5At (m ++ d) t ∧ t.md5.fin = false) ∧
    (Sha1At m s → s.sha1.fin = false → exec (.sha1Update (.bytes d)) s = .next t →
      Sha1At (m ++ d) t ∧ t.sha1.fin = false) ∧
    (Md5At m s → exec .md5Digest s = .next t →
      Md5At m t ∧ t.md5.fin = true ∧ t.responses = s.responses ++ [⟨0x00, md5Message m⟩]) ∧
    (Md5At m s → exec .md5Hex s = .next t →
      Md5At m t ∧ t.md5.fin = true ∧ t.responses = s.responses ++ [⟨0x00, hexEncode (md5Message m)⟩]) ∧
    (Sha1At m s → exec .sha1Digest s = .next t →
      Sha1At m t ∧ t.sha1.fin = true ∧ t.responses = s.responses ++ [⟨0x00, sha1Message m⟩]) ∧
    (Sha1At m s → exec .sha1Hex s = .next t →
      Sha1At m t ∧ t.sha1.fin = true ∧ t.responses = s.responses ++ [⟨0x00, hexEncode (sha1Message m)⟩])

/-- An instruction of one engine changes nothing of the other, transients included, and takes no request off the list
(10_state.md section 1; 44_commands.md rule R145). -/
def Obligations.InstructionsLeaveTheOtherEngineAlone : Prop :=
  ∀ (i : Instr) (s t : State), exec i s = .next t →
    (isMd5 i = true → t.sha1 = s.sha1) ∧ (isMd5 i = false → t.md5 = s.md5) ∧ t.pending = s.pending

/-- An instruction of the MD5 engine and one of the SHA-1 engine give the same engines in either order (20_memory.md
section 4, the interleaving sentence of rule R53). The transients are the same too, because each engine releases them by
a counter of its own: the model's choice (assumption log entry 4). -/
def Obligations.EnginesInterleaveFreely : Prop :=
  ∀ (i k : Instr) (s a b : State), isMd5 i = true → isMd5 k = false →
    exec i s = .next a → exec k a = .next b →
    ∃ a' b', exec k s = .next a' ∧ exec i a' = .next b' ∧
      b'.md5 = b.md5 ∧ b'.sha1 = b.sha1 ∧ b'.pending = b.pending

/-- The response and the next H, BUF, LEN and FIN of a command depend only on those of its engine, on the command and on
its payload: not on the transients, not on the other engine, not on requests or responses (rules R33, R158). -/
def Obligations.CommandsDependOnlyOnTheirEnginesState : Prop :=
  ∀ (i : Instr) (s s' : State), isCommand i = true →
    (isMd5 i = true → sameArch s.md5 s'.md5) → (isMd5 i = false → sameArch s.sha1 s'.sha1) →
    (∀ t, exec i s = .next t →
      ∃ t' r, exec i s' = .next t' ∧
        t.responses = s.responses ++ [r] ∧ t'.responses = s'.responses ++ [r] ∧
        (isMd5 i = true → sameArch t.md5 t'.md5) ∧ (isMd5 i = false → sameArch t.sha1 t'.sha1)) ∧
    (∀ why, exec i s = .refused why → exec i s' = .refused why)

/-- A finalised engine keeps H, BUF, LEN and FIN until its INIT (10_state.md section 3, rule R20). -/
def Obligations.FinalisedEngineIsFrozen : Prop :=
  ∀ (i : Instr) (s t : State), exec i s = .next t →
    (s.md5.fin = true → i ≠ .md5Init → sameArch s.md5 t.md5) ∧
    (s.sha1.fin = true → i ≠ .sha1Init → sameArch s.sha1 t.sha1)

/-- Which instructions change H, LEN and FIN: H changes only by INIT, by an UPDATE that completes a block, and by the
first DIGEST or HEX; LEN only by INIT and UPDATE; FIN is set only by DIGEST or HEX and cleared only by INIT
(10_state.md sections 2 and 3, rules R16, R19, R20). -/
def Obligations.OnlyTheseInstructionsChangeTheState : Prop :=
  ∀ (i : Instr) (s t : State), exec i s = .next t →
    (t.md5.h ≠ s.md5.h → i = .md5Init ∨
      (∃ d, i = .md5Update (.bytes d) ∧ s.md5.fin = false ∧ 64 ≤ (s.md5.buf ++ d).length) ∨
      ((i = .md5Digest ∨ i = .md5Hex) ∧ s.md5.fin = false)) ∧
    (t.sha1.h ≠ s.sha1.h → i = .sha1Init ∨
      (∃ d, i = .sha1Update (.bytes d) ∧ s.sha1.fin = false ∧ 64 ≤ (s.sha1.buf ++ d).length) ∨
      ((i = .sha1Digest ∨ i = .sha1Hex) ∧ s.sha1.fin = false)) ∧
    (t.md5.len ≠ s.md5.len → i = .md5Init ∨ ∃ d, i = .md5Update (.bytes d)) ∧
    (t.sha1.len ≠ s.sha1.len → i = .sha1Init ∨ ∃ d, i = .sha1Update (.bytes d)) ∧
    (s.md5.fin = false → t.md5.fin = true → i = .md5Digest ∨ i = .md5Hex) ∧
    (s.sha1.fin = false → t.sha1.fin = true → i = .sha1Digest ∨ i = .sha1Hex) ∧
    (s.md5.fin = true → t.md5.fin = false → i = .md5Init) ∧
    (s.sha1.fin = true → t.sha1.fin = false → i = .sha1Init)

/-- Every command word presented that gives a next state is answered by exactly one response, with a status of 0 to 3,
and without data unless the status is OK; a successful UPDATE has no data either (rule R60). -/
def Obligations.EveryCommandGivesOneResponse : Prop :=
  ∀ (s t : State) (cmd : BitVec 8) (p : Payload) (rest : List Request),
    s.pending = .issue (.command cmd p) :: rest → step s = .next t →
    ∃ r, t.responses = s.responses ++ [r] ∧ r.status.toNat ≤ 3 ∧ (r.status ≠ 0 → r.data = []) ∧
      (cmd.extractLsb' 0 3 = 1 → r.data = [])

/-- A hardware reset gives no response (70_reset_and_hazards.md section 1, rule R186). Neither does a step index
presented as a request: that it can be presented, and then acts without a response, is the model's choice (assumption log
entry 11). -/
def Obligations.StepsAndResetGiveNoResponse : Prop :=
  (∀ (s t : State) (j : BitVec 6) (rest : List Request),
    s.pending = .issue (.md5Index j) :: rest → step s = .next t → t.responses = s.responses) ∧
  (∀ (s t : State) (j : BitVec 7) (rest : List Request),
    s.pending = .issue (.sha1Index j) :: rest → step s = .next t → t.responses = s.responses) ∧
  (∀ (s t : State) (rest : List Request),
    s.pending = .reset :: rest → step s = .next t → t.responses = s.responses)
end

