-- ==== Sys2Proof/Laws/Bytes.lean ====
section
/-! SUPPORT. The laws of the byte spaces and of cutting a byte stream into blocks: read after write, a write leaves
every other cell alone, and blocks of a stream depend only on the bytes they cover. -/

namespace Sys2Proof.Machine

/-- A write gives the written bytes at the offsets it covers. -/
theorem memWrite_inside {size : Nat} (space : Vector Byte size) (addr : Nat) (v : List Byte) (i : Nat)
    (hi : i < size) (h1 : addr ≤ i) (h2 : i < addr + v.length) :
    (memWrite space addr v)[i] = v[i - addr]'(by omega) := by
  simp [memWrite, h1, List.getD_eq_getElem?_getD, List.getElem?_eq_getElem (show i - addr < v.length by omega)]

/-- A write leaves every cell outside the offsets it covers alone. -/
theorem memWrite_outside {size : Nat} (space : Vector Byte size) (addr : Nat) (v : List Byte) (i : Nat)
    (hi : i < size) (h : i < addr ∨ addr + v.length ≤ i) : (memWrite space addr v)[i] = space[i] := by
  rcases h with h | h
  · simp [memWrite, show ¬ addr ≤ i by omega, Vector.get_eq_getElem]
  · simp [memWrite, show addr ≤ i by omega, List.getD_eq_getElem?_getD,
      List.getElem?_eq_none (show v.length ≤ i - addr by omega), Vector.get_eq_getElem]

/-- A read inside a space has the length asked for. -/
theorem memRead_length {size : Nat} (space : Vector Byte size) (addr n : Nat) (h : addr + n ≤ size) :
    (memRead space addr n).length = n := by
  simp [memRead]; omega

/-- Byte `i` of a read is the cell at offset `addr + i`. -/
theorem memRead_getElem {size : Nat} (space : Vector Byte size) (addr n i : Nat) (hi : i < n)
    (h : addr + n ≤ size) :
    (memRead space addr n)[i]'(by rw [memRead_length _ _ _ h]; exact hi) = space[addr + i] := by
  simp [memRead]

/-- Cell `i` of a block made from at least 64 bytes is byte `i`. -/
theorem blockOf_getElem (s : List Byte) (i : Nat) (hi : i < 64) (h : 64 ≤ s.length) :
    (blockOf s)[i] = s[i]'(by omega) := by
  simp [blockOf, List.getD_eq_getElem?_getD, List.getElem?_eq_getElem (show i < s.length by omega)]

/-- A block is made from the first 64 bytes only. -/
theorem blockOf_append (s t : List Byte) (h : 64 ≤ s.length) : blockOf (s ++ t) = blockOf s := by
  apply Vector.ext
  intro i hi
  simp [blockOf, List.getD_eq_getElem?_getD, List.getElem?_append_left (show i < s.length by omega)]

@[simp] theorem blocksOf_length (n : Nat) (s : List Byte) : (blocksOf n s).length = n := by
  induction n generalizing s with
  | zero => rfl
  | succ n ih => simp [blocksOf, ih]

/-- The first `n + k` blocks are the first `n` and then `k` more. -/
theorem blocksOf_add (n k : Nat) (s : List Byte) :
    blocksOf (n + k) s = blocksOf n s ++ blocksOf k (s.drop (64 * n)) := by
  induction n generalizing s with
  | zero => simp [blocksOf]
  | succ n ih =>
    rw [show n + 1 + k = (n + k) + 1 by omega]
    simp [blocksOf, ih, List.drop_drop, show 64 + 64 * n = 64 * (n + 1) by omega]

/-- The first `n` blocks do not depend on bytes past them. -/
theorem blocksOf_append (n : Nat) (s t : List Byte) (h : 64 * n ≤ s.length) :
    blocksOf n (s ++ t) = blocksOf n s := by
  induction n generalizing s with
  | zero => rfl
  | succ n ih =>
    have hd : (s ++ t).drop 64 = s.drop 64 ++ t := List.drop_append_of_le_length (by omega)
    rw [blocksOf, blocksOf, blockOf_append s t (by omega), hd, ih (s.drop 64) (by simp; omega)]

end Sys2Proof.Machine
end

