-- ==== Sys2Proof/Laws/State.lean ====
section
/-! SUPPORT. One lemma per field for each named update of the state, each true by definition, so that no later proof
unfolds a record update. The proofs are written `(rfl)`, so that simp rewrites with a lemma and leaves no comparison of
whole engines to the kernel, which would unfold 32-bit sums. -/

namespace Sys2Proof.Machine

variable {η ω : Type}

@[simp] theorem setMd5_md5 (e : Engine Md5H Md5Work) (s : State) : (setMd5 e s).md5 = e := (rfl)
@[simp] theorem setMd5_sha1 (e : Engine Md5H Md5Work) (s : State) : (setMd5 e s).sha1 = s.sha1 := (rfl)
@[simp] theorem setMd5_pending (e : Engine Md5H Md5Work) (s : State) : (setMd5 e s).pending = s.pending := (rfl)
@[simp] theorem setMd5_responses (e : Engine Md5H Md5Work) (s : State) : (setMd5 e s).responses = s.responses := (rfl)

@[simp] theorem setSha1_sha1 (e : Engine Sha1H Sha1Work) (s : State) : (setSha1 e s).sha1 = e := (rfl)
@[simp] theorem setSha1_md5 (e : Engine Sha1H Sha1Work) (s : State) : (setSha1 e s).md5 = s.md5 := (rfl)
@[simp] theorem setSha1_pending (e : Engine Sha1H Sha1Work) (s : State) : (setSha1 e s).pending = s.pending := (rfl)
@[simp] theorem setSha1_responses (e : Engine Sha1H Sha1Work) (s : State) :
    (setSha1 e s).responses = s.responses := (rfl)

@[simp] theorem respond_md5 (c : BitVec 8) (d : List Byte) (s : State) : (respond c d s).md5 = s.md5 := (rfl)
@[simp] theorem respond_sha1 (c : BitVec 8) (d : List Byte) (s : State) : (respond c d s).sha1 = s.sha1 := (rfl)
@[simp] theorem respond_pending (c : BitVec 8) (d : List Byte) (s : State) :
    (respond c d s).pending = s.pending := (rfl)
@[simp] theorem respond_responses (c : BitVec 8) (d : List Byte) (s : State) :
    (respond c d s).responses = s.responses ++ [⟨c, d⟩] := (rfl)

@[simp] theorem raiseError_md5 (k : ErrorKind) (s : State) : (raiseError k s).md5 = s.md5 := (rfl)
@[simp] theorem raiseError_sha1 (k : ErrorKind) (s : State) : (raiseError k s).sha1 = s.sha1 := (rfl)
@[simp] theorem raiseError_pending (k : ErrorKind) (s : State) : (raiseError k s).pending = s.pending := (rfl)
@[simp] theorem raiseError_responses (k : ErrorKind) (s : State) :
    (raiseError k s).responses = s.responses ++ [⟨errorStatus k, []⟩] := (rfl)

@[simp] theorem initEngine_h (A : Alg η ω) (e : Engine η ω) : (initEngine A e).h = A.iv := (rfl)
@[simp] theorem initEngine_buf (A : Alg η ω) (e : Engine η ω) : (initEngine A e).buf = [] := (rfl)
@[simp] theorem initEngine_len (A : Alg η ω) (e : Engine η ω) : (initEngine A e).len = 0 := (rfl)
@[simp] theorem initEngine_fin (A : Alg η ω) (e : Engine η ω) : (initEngine A e).fin = false := (rfl)
@[simp] theorem initEngine_work (A : Alg η ω) (e : Engine η ω) : (initEngine A e).work = e.work := (rfl)
@[simp] theorem initEngine_fresh (A : Alg η ω) (e : Engine η ω) : (initEngine A e).fresh = e.fresh := (rfl)

@[simp] theorem release_h (A : Alg η ω) (e : Engine η ω) : (release A e).h = e.h := (rfl)
@[simp] theorem release_buf (A : Alg η ω) (e : Engine η ω) : (release A e).buf = e.buf := (rfl)
@[simp] theorem release_len (A : Alg η ω) (e : Engine η ω) : (release A e).len = e.len := (rfl)
@[simp] theorem release_fin (A : Alg η ω) (e : Engine η ω) : (release A e).fin = e.fin := (rfl)
@[simp] theorem release_fresh (A : Alg η ω) (e : Engine η ω) : (release A e).fresh = e.fresh + 1 := (rfl)
@[simp] theorem release_work (A : Alg η ω) (e : Engine η ω) : (release A e).work = A.free e.fresh := (rfl)

/-- The whole effect of a step on a state with a request presented. -/
theorem step_cons {s : State} {r : Request} {rest : List Request} (h : s.pending = r :: rest) :
    step s = runRequest r { s with pending := rest } := by
  simp [step, h]

/-- The whole effect of a step on a state with no request presented. -/
theorem step_nil {s : State} (h : s.pending = []) : step s = .next s := by
  simp [step, h]

end Sys2Proof.Machine
end

