-- ==== Sys2Proof/Laws/Engines.lean ====
section
/-! SUPPORT. What a compression, Absorb and Finalize can do to an engine, said once for both engines; and the state of a
sequencer after any number of issues. -/

namespace Sys2Proof.Machine

variable {η ω : Type}

/-- What is true of both engines' compressions: only H, to a function of H and the block, and the transients change,
and PAD is not one of the transients that do. -/
structure Lawful (A : Alg η ω) (f : η → Block → η) : Prop where
  compress_h : ∀ e b, (A.compress e b).h = f e.h b
  compress_buf : ∀ e b, (A.compress e b).buf = e.buf
  compress_len : ∀ e b, (A.compress e b).len = e.len
  compress_fin : ∀ e b, (A.compress e b).fin = e.fin
  compress_fresh : ∀ e b, (A.compress e b).fresh = e.fresh
  compress_pad : ∀ e b, A.pad (A.compress e b).work = A.pad e.work
  pad_setPad : ∀ p w, A.pad (A.setPad p w) = p

/-- Compressing blocks changes H, to the fold of the compression function, and the transients. -/
theorem compressBlocks_spec {A : Alg η ω} {f : η → Block → η} (hA : Lawful A f) (bs : List Block)
    (e : Engine η ω) :
    (compressBlocks A bs e).h = bs.foldl f e.h ∧ (compressBlocks A bs e).buf = e.buf ∧
    (compressBlocks A bs e).len = e.len ∧ (compressBlocks A bs e).fin = e.fin ∧
    (compressBlocks A bs e).fresh = e.fresh := by
  induction bs generalizing e with
  | nil => simp [compressBlocks]
  | cons b bs ih =>
    have h := ih (A.compress e b)
    simpa [compressBlocks, hA.compress_h, hA.compress_buf, hA.compress_len, hA.compress_fin,
      hA.compress_fresh] using h

/-- Absorb, whole (rule R154): H takes in every complete block of tail and payload, the tail is what is left, LEN grows
by the payload's length, FIN and the release counter stay. -/
theorem absorb_spec {A : Alg η ω} {f : η → Block → η} (hA : Lawful A f) (data : List Byte) (e : Engine η ω) :
    (absorb A data e).h = (allBlocks (e.buf ++ data)).foldl f e.h ∧
    (absorb A data e).buf = tailOf (e.buf ++ data) ∧
    (absorb A data e).len = e.len + BitVec.ofNat 64 data.length ∧
    (absorb A data e).fin = e.fin ∧
    (absorb A data e).fresh = e.fresh := by
  obtain ⟨h1, h2, h3, h4, h5⟩ := compressBlocks_spec hA (blocksOf ((e.buf ++ data).length / 64) (e.buf ++ data)) e
  exact ⟨h1, rfl, by simp only [absorb, h3], h4, h5⟩

/-- The padded tail that Finalize builds for an engine (rules R98, R103). -/
def padOf (A : Alg η ω) (e : Engine η ω) : PadSpace := padTail A.lenField e.buf e.len (A.pad e.work)

/-- Finalize, whole (rule R103): H takes in the one or two blocks of the padded tail, the buffer is empty, FIN is set,
LEN and the release counter stay. -/
theorem finalize_spec {A : Alg η ω} {f : η → Block → η} (hA : Lawful A f) (e : Engine η ω) :
    (finalize A e).h = (blocksOf (padLen e.buf.length / 64) (padOf A e).toList).foldl f e.h ∧
    (finalize A e).buf = [] ∧ (finalize A e).len = e.len ∧ (finalize A e).fin = true ∧
    (finalize A e).fresh = e.fresh := by
  have hb (n : Nat) (hn : n + 64 ≤ 128) :
      blockOf (memRead (padOf A e) n 64) = blockOf ((padOf A e).toList.drop n) := by
    apply Vector.ext
    intro i hi
    simp [blockOf, memRead]
  have h0 := hb 0 (by omega)
  have h64 := hb 64 (by omega)
  unfold finalize padLen
  by_cases hr : e.buf.length ≤ 55
  · simp [hr, padBlock, hA.compress_h, hA.compress_len, hA.compress_fresh, hA.pad_setPad, blocksOf, ← padOf.eq_def, h0]
  · simp [hr, padBlock, hA.compress_h, hA.compress_len, hA.compress_fresh, hA.compress_pad, hA.pad_setPad, blocksOf,
      ← padOf.eq_def, h0, h64]

/-- After `n ≤ 64` issues from a started compression the MD5 sequencer's counter is `n`, its block words, BLK and PAD
are untouched, and its working variables are those of the first `n` steps. -/
theorem md5Run_spec (h : Md5H) (w : Md5Work) (n : Nat) (hn : n ≤ 64) :
    (md5Run n (md5Start h w)).j.val = n ∧ (md5Run n (md5Start h w)).x = w.x ∧
    (md5Run n (md5Start h w)).blk = w.blk ∧ (md5Run n (md5Start h w)).pad = w.pad ∧
    (⟨(md5Run n (md5Start h w)).a, (md5Run n (md5Start h w)).b, (md5Run n (md5Start h w)).c,
      (md5Run n (md5Start h w)).d⟩ : Md5H) = md5Mixes w.x n h := by
  induction n with
  | zero => simp [md5Run, md5Start, md5Mixes]
  | succ n ih =>
    obtain ⟨hj, hx, hb, hp, hv⟩ := ih (by omega)
    have hlt : (md5Run n (md5Start h w)).j.val < 64 := by omega
    have hmod : n % 64 = n := Nat.mod_eq_of_lt (by omega)
    simp only [md5Run, md5Issue, hj, show n < 64 by omega, if_true, md5StepBody, md5Mixes, ← hv, md5Mix, hx, hb, hp,
      add32, BitVec.toNat_ofNat, Nat.reducePow, hmod, and_self]

@[simp] theorem md5Alg_free : md5Alg.free = md5Free := (rfl)
@[simp] theorem md5Alg_iv : md5Alg.iv = ivMd5 := (rfl)
@[simp] theorem md5Alg_lenField : md5Alg.lenField = lenFieldMd5 := (rfl)
@[simp] theorem md5Alg_compress : md5Alg.compress = md5Compress := (rfl)
@[simp] theorem md5Alg_digest : md5Alg.digest = digestMd5 := (rfl)
@[simp] theorem md5Alg_pad : md5Alg.pad = Md5Work.pad := (rfl)
@[simp] theorem md5Alg_setPad (p : PadSpace) (w : Md5Work) : md5Alg.setPad p w = { w with pad := p } := (rfl)

/-- The engine after a compression, as a record. -/
theorem md5Compress_eq (e : Engine Md5H Md5Work) (b : Block) :
    md5Compress e b =
      { e with
        work := md5Run 64 (md5Start e.h (md5Load b e.work))
        h := md5Feed e.h (md5Run 64 (md5Start e.h (md5Load b e.work))) } := by
  unfold md5Compress; rfl

/-- A compression leaves the MD5 engine's buffer, byte counter, flag and PAD alone. -/
theorem md5Compress_frame (e : Engine Md5H Md5Work) (b : Block) :
    (md5Compress e b).buf = e.buf ∧ (md5Compress e b).len = e.len ∧ (md5Compress e b).fin = e.fin ∧
    (md5Compress e b).fresh = e.fresh ∧ (md5Compress e b).work.pad = e.work.pad := by
  have hp := (md5Run_spec e.h (md5Load b e.work) 64 (Nat.le_refl _)).2.2.2.1
  rw [md5Compress_eq]
  exact ⟨rfl, rfl, rfl, rfl, hp⟩

/-- After `n ≤ 80` issues from a started compression the SHA-1 sequencer's counter is `n`, its schedule, BLK and PAD
are untouched, and its working variables are those of the first `n` steps. -/
theorem sha1Run_spec (h : Sha1H) (w : Sha1Work) (n : Nat) (hn : n ≤ 80) :
    (sha1Run n (sha1Start h w)).t.val = n ∧ (sha1Run n (sha1Start h w)).w = w.w ∧
    (sha1Run n (sha1Start h w)).blk = w.blk ∧ (sha1Run n (sha1Start h w)).pad = w.pad ∧
    (⟨(sha1Run n (sha1Start h w)).a, (sha1Run n (sha1Start h w)).b, (sha1Run n (sha1Start h w)).c,
      (sha1Run n (sha1Start h w)).d, (sha1Run n (sha1Start h w)).e⟩ : Sha1H) = sha1Mixes w.w.toList n h := by
  induction n with
  | zero => simp [sha1Run, sha1Start, sha1Mixes]
  | succ n ih =>
    obtain ⟨hj, hx, hb, hp, hv⟩ := ih (by omega)
    have hlt : (sha1Run n (sha1Start h w)).t.val < 80 := by omega
    have hn' : n < 80 := by omega
    simp [sha1Run, sha1Issue, hj, hn', sha1StepBody, sha1Mixes, ← hv, sha1Mix, hx, hb, hp, add32, schedWord]

@[simp] theorem sha1Alg_free : sha1Alg.free = sha1Free := (rfl)
@[simp] theorem sha1Alg_iv : sha1Alg.iv = ivSha1 := (rfl)
@[simp] theorem sha1Alg_lenField : sha1Alg.lenField = lenFieldSha1 := (rfl)
@[simp] theorem sha1Alg_compress : sha1Alg.compress = sha1Compress := (rfl)
@[simp] theorem sha1Alg_digest : sha1Alg.digest = digestSha1 := (rfl)
@[simp] theorem sha1Alg_pad : sha1Alg.pad = Sha1Work.pad := (rfl)
@[simp] theorem sha1Alg_setPad (p : PadSpace) (w : Sha1Work) : sha1Alg.setPad p w = { w with pad := p } := (rfl)

/-- The engine after a compression, as a record. -/
theorem sha1Compress_eq (e : Engine Sha1H Sha1Work) (b : Block) :
    sha1Compress e b =
      { e with
        work := sha1Run 80 (sha1Start e.h (sha1Load b e.work))
        h := sha1Feed e.h (sha1Run 80 (sha1Start e.h (sha1Load b e.work))) } := by
  unfold sha1Compress; rfl

/-- A compression leaves the SHA-1 engine's buffer, byte counter, flag and PAD alone. -/
theorem sha1Compress_frame (e : Engine Sha1H Sha1Work) (b : Block) :
    (sha1Compress e b).buf = e.buf ∧ (sha1Compress e b).len = e.len ∧ (sha1Compress e b).fin = e.fin ∧
    (sha1Compress e b).fresh = e.fresh ∧ (sha1Compress e b).work.pad = e.work.pad := by
  have hp := (sha1Run_spec e.h (sha1Load b e.work) 80 (Nat.le_refl _)).2.2.2.1
  rw [sha1Compress_eq]
  exact ⟨rfl, rfl, rfl, rfl, hp⟩

end Sys2Proof.Machine
end

