-- ==== Sys2Proof/Laws/Commands.lean ====
section
/-! SUPPORT. The end of a command field by field, and everything the shared bodies of the commands and of the step
micro-operations can do: one inversion lemma each. -/

namespace Sys2Proof.Machine

variable {η ω : Type}

@[simp] theorem complete_setMd5_md5 (A : Alg Md5H Md5Work) (d : List Byte) (e : Engine Md5H Md5Work) (s : State) :
    (complete A setMd5 d e s).md5 = release A e := (rfl)
@[simp] theorem complete_setMd5_sha1 (A : Alg Md5H Md5Work) (d : List Byte) (e : Engine Md5H Md5Work) (s : State) :
    (complete A setMd5 d e s).sha1 = s.sha1 := (rfl)
@[simp] theorem complete_setMd5_pending (A : Alg Md5H Md5Work) (d : List Byte) (e : Engine Md5H Md5Work) (s : State) :
    (complete A setMd5 d e s).pending = s.pending := (rfl)
@[simp] theorem complete_setMd5_responses (A : Alg Md5H Md5Work) (d : List Byte) (e : Engine Md5H Md5Work) (s : State) :
    (complete A setMd5 d e s).responses = s.responses ++ [⟨statusOk, d⟩] := (rfl)

@[simp] theorem complete_setSha1_sha1 (A : Alg Sha1H Sha1Work) (d : List Byte) (e : Engine Sha1H Sha1Work) (s : State) :
    (complete A setSha1 d e s).sha1 = release A e := (rfl)
@[simp] theorem complete_setSha1_md5 (A : Alg Sha1H Sha1Work) (d : List Byte) (e : Engine Sha1H Sha1Work) (s : State) :
    (complete A setSha1 d e s).md5 = s.md5 := (rfl)
@[simp] theorem complete_setSha1_pending (A : Alg Sha1H Sha1Work) (d : List Byte) (e : Engine Sha1H Sha1Work) (s : State) :
    (complete A setSha1 d e s).pending = s.pending := (rfl)
@[simp] theorem complete_setSha1_responses (A : Alg Sha1H Sha1Work) (d : List Byte) (e : Engine Sha1H Sha1Work) (s : State) :
    (complete A setSha1 d e s).responses = s.responses ++ [⟨statusOk, d⟩] := (rfl)

/-- An UPDATE that gives a next state either raised the error its checks name and changed nothing, or absorbed a payload
that fits and answered OK. -/
theorem updateWith_next {A : Alg η ω} {put : Engine η ω → State → State} {payload : Payload} {e : Engine η ω}
    {s t : State} (h : updateWith A put payload e s = .next t) :
    (∃ k, updateError e.fin payload = some k ∧ t = raiseError k s) ∨
    (∃ data, payload = .bytes data ∧ e.fin = false ∧ e.len.toNat + data.length ≤ maxMsg ∧
      t = complete A put [] (absorb A data e) s) := by
  unfold updateWith at h
  cases payload with
  | notBytes => left; exact ⟨_, rfl, by simpa [updateError] using h.symm⟩
  | bytes data =>
    cases hf : e.fin with
    | true => left; exact ⟨.finalizedState, by simp [updateError], by simpa [updateError, hf] using h.symm⟩
    | false =>
      right
      simp only [updateError, hf, payloadBytes, fits] at h
      by_cases hd : e.len.toNat + data.length ≤ maxMsg
      · exact ⟨data, rfl, rfl, hd, by simpa [hd] using h.symm⟩
      · simp [hd] at h

/-- An UPDATE that passes its checks and fits absorbs its payload. -/
theorem updateWith_ok (A : Alg η ω) (put : Engine η ω → State → State) (data : List Byte) (e : Engine η ω) (s : State)
    (hf : e.fin = false) (hd : e.len.toNat + data.length ≤ maxMsg) :
    updateWith A put (.bytes data) e s = .next (complete A put [] (absorb A data e) s) := by
  simp [updateWith, updateError, hf, fits, payloadBytes, hd]

/-- An UPDATE that passes its checks and does not fit is refused. -/
theorem updateWith_over (A : Alg η ω) (put : Engine η ω → State → State) (data : List Byte) (e : Engine η ω)
    (s : State) (hf : e.fin = false) (hd : maxMsg < e.len.toNat + data.length) :
    updateWith A put (.bytes data) e s = .refused .messageTooLong := by
  have h : fits e.len data = false := decide_eq_false (by omega)
  simp [updateWith, updateError, hf, payloadBytes, h]

/-- DIGEST and HEX always give a next state. -/
theorem digestWith_eq (A : Alg η ω) (put : Engine η ω → State → State) (render : List Byte → List Byte)
    (e : Engine η ω) (s : State) :
    digestWith A put render e s =
      .next (complete A put (render (A.digest (finalized A e).h)) (finalized A e) s) := rfl

/-- INIT always gives a next state. -/
theorem initWith_eq (A : Alg η ω) (put : Engine η ω → State → State) (e : Engine η ω) (s : State) :
    initWith A put e s = .next (complete A put [] (initEngine A e) s) := rfl

/-- DIGEST and HEX leave the release counter to the end of the command. -/
theorem finalized_fresh {A : Alg η ω} {f : η → Block → η} (hA : Lawful A f) (e : Engine η ω) :
    (finalized A e).fresh = e.fresh := by
  unfold finalized
  split
  · rfl
  · exact (finalize_spec hA e).2.2.2.2

/-- A finalised engine is its own result. -/
theorem finalized_of_fin {A : Alg η ω} {e : Engine η ω} (h : e.fin = true) : finalized A e = e := by
  simp [finalized, h]

/-- An engine that is not finalised is finalised. -/
theorem finalized_of_not_fin {A : Alg η ω} {e : Engine η ω} (h : e.fin = false) :
    finalized A e = finalize A e := by
  simp [finalized, h]

/-- An MD5 micro-operation gives a next state exactly for a step of its phase, and then runs the step body. -/
theorem md5MicroOp_next {p : Nat} {fn : Word → Word → Word → Word} {j : BitVec 6} {s t : State} :
    md5MicroOp p fn j s = .next t ↔
      md5InPhase p j = true ∧ t = setMd5 { s.md5 with work := md5StepBody fn j s.md5.work } s := by
  unfold md5MicroOp
  by_cases h : md5InPhase p j = true
  · simp [h, eq_comm]
  · simp [h]

/-- A SHA-1 micro-operation gives a next state exactly for a step of its phase, and then runs the step body. -/
theorem sha1MicroOp_next {p : Fin 4} {fn : Word → Word → Word → Word} {j : BitVec 7} {s t : State} :
    sha1MicroOp p fn j s = .next t ↔
      ∃ h : sha1InPhase p.val j = true,
        t = setSha1 { s.sha1 with
          work := sha1StepBody fn (sha1K p.val) ⟨j.toNat, sha1InPhase_lt p j h⟩ s.sha1.work } s := by
  unfold sha1MicroOp
  by_cases h : sha1InPhase p.val j = true
  · simp [h, eq_comm]
  · simp [h]

end Sys2Proof.Machine
end

