-- ==== Sys2Proof/Laws/Messages.lean ====
section
/-! SUPPORT. "The engine is at message m" and "the engines agree but for transients" under each named update of the
state, each true by definition, so that no later proof compares whole engines; and cutting a message that grows at its
end into blocks and tail. -/

namespace Sys2Proof.Machine

variable {η ω : Type}

@[simp] theorem Md5At_respond (m : List Byte) (c : BitVec 8) (d : List Byte) (s : State) :
    Md5At m (respond c d s) ↔ Md5At m s := (Iff.rfl)
@[simp] theorem Sha1At_respond (m : List Byte) (c : BitVec 8) (d : List Byte) (s : State) :
    Sha1At m (respond c d s) ↔ Sha1At m s := (Iff.rfl)
@[simp] theorem Md5At_raiseError (m : List Byte) (k : ErrorKind) (s : State) :
    Md5At m (raiseError k s) ↔ Md5At m s := (Iff.rfl)
@[simp] theorem Sha1At_raiseError (m : List Byte) (k : ErrorKind) (s : State) :
    Sha1At m (raiseError k s) ↔ Sha1At m s := (Iff.rfl)
@[simp] theorem Md5At_setMd5 (m : List Byte) (e : Engine Md5H Md5Work) (s : State) :
    Md5At m (setMd5 e s) ↔ AtMessage lenFieldMd5 chainMd5 m e := (Iff.rfl)
@[simp] theorem Md5At_setSha1 (m : List Byte) (e : Engine Sha1H Sha1Work) (s : State) :
    Md5At m (setSha1 e s) ↔ Md5At m s := (Iff.rfl)
@[simp] theorem Sha1At_setSha1 (m : List Byte) (e : Engine Sha1H Sha1Work) (s : State) :
    Sha1At m (setSha1 e s) ↔ AtMessage lenFieldSha1 chainSha1 m e := (Iff.rfl)
@[simp] theorem Sha1At_setMd5 (m : List Byte) (e : Engine Md5H Md5Work) (s : State) :
    Sha1At m (setMd5 e s) ↔ Sha1At m s := (Iff.rfl)

@[simp] theorem Md5At_complete (m : List Byte) (A : Alg Md5H Md5Work) (d : List Byte) (e : Engine Md5H Md5Work)
    (s : State) : Md5At m (complete A setMd5 d e s) ↔ AtMessage lenFieldMd5 chainMd5 m e := (Iff.rfl)
@[simp] theorem Sha1At_complete_setMd5 (m : List Byte) (A : Alg Md5H Md5Work) (d : List Byte)
    (e : Engine Md5H Md5Work) (s : State) : Sha1At m (complete A setMd5 d e s) ↔ Sha1At m s := (Iff.rfl)
@[simp] theorem Sha1At_complete (m : List Byte) (A : Alg Sha1H Sha1Work) (d : List Byte) (e : Engine Sha1H Sha1Work)
    (s : State) : Sha1At m (complete A setSha1 d e s) ↔ AtMessage lenFieldSha1 chainSha1 m e := (Iff.rfl)
@[simp] theorem Md5At_complete_setSha1 (m : List Byte) (A : Alg Sha1H Sha1Work) (d : List Byte)
    (e : Engine Sha1H Sha1Work) (s : State) : Md5At m (complete A setSha1 d e s) ↔ Md5At m s := (Iff.rfl)

/-- The micro-operations write only transients, which "at message m" does not mention. -/
@[simp] theorem AtMessage_work (lenField : BitVec 64 → List Byte) (chain : List Byte → η) (m : List Byte)
    (e : Engine η ω) (w : ω) : AtMessage lenField chain m { e with work := w } ↔ AtMessage lenField chain m e := (Iff.rfl)

/-- Nor does the release of the transients. -/
@[simp] theorem AtMessage_release (lenField : BitVec 64 → List Byte) (chain : List Byte → η) (m : List Byte)
    (A : Alg η ω) (e : Engine η ω) : AtMessage lenField chain m (release A e) ↔ AtMessage lenField chain m e := (Iff.rfl)

@[simp] theorem sameArch_release_left (A : Alg η ω) (e e' : Engine η ω) :
    sameArch (release A e) e' ↔ sameArch e e' := (Iff.rfl)
@[simp] theorem sameArch_release_right (A : Alg η ω) (e e' : Engine η ω) :
    sameArch e (release A e') ↔ sameArch e e' := (Iff.rfl)

/-- An engine agrees with itself. -/
@[simp] theorem sameArch_refl (e : Engine η ω) : sameArch e e := ⟨rfl, rfl, rfl, rfl⟩

/-- The tail has the length of the message mod 64. -/
theorem tailOf_length (m : List Byte) : (tailOf m).length = m.length % 64 := by
  simp [tailOf]; omega

/-- The complete blocks of a longer message: those of the message, then those of its tail and the rest. -/
theorem allBlocks_append (m d : List Byte) : allBlocks (m ++ d) = allBlocks m ++ allBlocks (tailOf m ++ d) := by
  unfold allBlocks
  have h1 : (m ++ d).drop (64 * (m.length / 64)) = tailOf m ++ d := List.drop_append_of_le_length (by omega)
  rw [List.length_append, show (m.length + d.length) / 64 = m.length / 64 + (m.length % 64 + d.length) / 64 by omega,
    blocksOf_add, blocksOf_append _ _ _ (by omega), h1, List.length_append, tailOf_length]

/-- The tail of a longer message is that of the old tail and the rest. -/
theorem tailOf_append (m d : List Byte) : tailOf (m ++ d) = tailOf (tailOf m ++ d) := by
  have h1 : (m ++ d).drop (64 * (m.length / 64)) = tailOf m ++ d := List.drop_append_of_le_length (by omega)
  have h2 (l : List Byte) : tailOf l = l.drop (64 * (l.length / 64)) := rfl
  rw [h2 (m ++ d), h2 (tailOf m ++ d), List.length_append,
    show (m.length + d.length) / 64 = m.length / 64 + (m.length % 64 + d.length) / 64 by omega, Nat.mul_add,
    ← List.drop_drop, h1, List.length_append, tailOf_length]

end Sys2Proof.Machine
end

