-- ==== Sys2Proof/Laws/PerInstr.lean ====
section
/-! SUPPORT. Statements about every instruction as syntax, one lemma per constructor. Family EngineSelect: where the
encoding of an instruction is a command word, its bit 7 selects the engine the instruction belongs to (rule R57). -/

namespace Sys2Proof.Laws

open Sys2Proof Sys2Proof.Machine

/-- Bit 7 of the encoded command word is 0 for an MD5 command and 1 for a SHA-1 command (rule R57). -/
def EngineSelect.Statement (i : Instr) : Prop :=
  ∀ cmd payload, encode i = .command cmd payload → cmdEngine cmd = !isMd5 i

theorem EngineSelect.md5Init : EngineSelect.Statement .md5Init := by
  rintro _ _ ⟨⟩; decide

theorem EngineSelect.md5Update (payload : Payload) : EngineSelect.Statement (.md5Update payload) := by
  rintro _ _ ⟨⟩; simp only [isMd5]; decide

theorem EngineSelect.md5Digest : EngineSelect.Statement .md5Digest := by
  rintro _ _ ⟨⟩; decide

theorem EngineSelect.md5Hex : EngineSelect.Statement .md5Hex := by
  rintro _ _ ⟨⟩; decide

theorem EngineSelect.sha1Init : EngineSelect.Statement .sha1Init := by
  rintro _ _ ⟨⟩; decide

theorem EngineSelect.sha1Update (payload : Payload) : EngineSelect.Statement (.sha1Update payload) := by
  rintro _ _ ⟨⟩; simp only [isMd5]; decide

theorem EngineSelect.sha1Digest : EngineSelect.Statement .sha1Digest := by
  rintro _ _ ⟨⟩; decide

theorem EngineSelect.sha1Hex : EngineSelect.Statement .sha1Hex := by
  rintro _ _ ⟨⟩; decide

theorem EngineSelect.md5StepF (j : BitVec 6) : EngineSelect.Statement (.md5StepF j) := by
  rintro _ _ ⟨⟩

theorem EngineSelect.md5StepG (j : BitVec 6) : EngineSelect.Statement (.md5StepG j) := by
  rintro _ _ ⟨⟩

theorem EngineSelect.md5StepH (j : BitVec 6) : EngineSelect.Statement (.md5StepH j) := by
  rintro _ _ ⟨⟩

theorem EngineSelect.md5StepI (j : BitVec 6) : EngineSelect.Statement (.md5StepI j) := by
  rintro _ _ ⟨⟩

theorem EngineSelect.sha1StepP1 (t : BitVec 7) : EngineSelect.Statement (.sha1StepP1 t) := by
  rintro _ _ ⟨⟩

theorem EngineSelect.sha1StepP2 (t : BitVec 7) : EngineSelect.Statement (.sha1StepP2 t) := by
  rintro _ _ ⟨⟩

theorem EngineSelect.sha1StepP3 (t : BitVec 7) : EngineSelect.Statement (.sha1StepP3 t) := by
  rintro _ _ ⟨⟩

theorem EngineSelect.sha1StepP4 (t : BitVec 7) : EngineSelect.Statement (.sha1StepP4 t) := by
  rintro _ _ ⟨⟩

end Sys2Proof.Laws
end

