-- ==== Sys2Proof/Tests/Slice0.lean ====
section
/-! SUPPORT. The model's own tests. Every expected value is a worked example or a table entry of spec/, named beside the
test; no value comes from the model. First the well-formedness smoke tests, then decoding, word operations, steps,
commands, and at the end a witness for the hypotheses of every statement that has some. -/

namespace Sys2Proof.Tests

open Sys2Proof Sys2Proof.Machine

set_option Elab.async false

/-! ### Helpers -/

/-- The outcome is a next state with the property. -/
def passes (o : Host.Outcome State Fault Refusal) (p : State → Bool) : Bool :=
  match o with
  | .next t => p t
  | .fault _ => false
  | .refused _ => false

/-- The outcome is this fault. -/
def faults (o : Host.Outcome State Fault Refusal) (f : Fault) : Bool :=
  match o with
  | .next _ => false
  | .fault g => g == f
  | .refused _ => false

/-- The outcome is this refusal. -/
def refuses (o : Host.Outcome State Fault Refusal) (r : Refusal) : Bool :=
  match o with
  | .next _ => false
  | .fault _ => false
  | .refused q => q == r

/-- `n` bytes written as one hexadecimal number, the first byte most significant. -/
def hexBytes (n v : Nat) : List Byte := (List.range n).map fun i => BitVec.ofNat 8 (v / 256 ^ (n - 1 - i))

/-- `n` hexadecimal digits written as one number, as the ASCII codes of the characters (rule R66). -/
def hexText (n v : Nat) : List Byte :=
  (List.range n).map fun i =>
    let d := v / 16 ^ (n - 1 - i) % 16
    BitVec.ofNat 8 (if d < 10 then 48 + d else 87 + d)

/-- The bytes of "abc". -/
def abc : List Byte := [0x61, 0x62, 0x63]

/-- `n` bytes 0x61, `rep(61, n)` of rule R70. -/
def rep61 (n : Nat) : List Byte := List.replicate n 0x61

/-- The reset state with the MD5 engine's tail and byte counter set. -/
def md5Tail (buf : List Byte) (len : BitVec 64) : State :=
  { State.reset with md5 := { State.reset.md5 with buf := buf, len := len } }

/-- The reset state with the SHA-1 engine's tail and byte counter set. -/
def sha1Tail (buf : List Byte) (len : BitVec 64) : State :=
  { State.reset with sha1 := { State.reset.sha1 with buf := buf, len := len } }

/-- The reset state with MD5 working variables and every block word set to `x`. -/
def md5Vars (a b c d x : Word) : State :=
  { State.reset with md5 := { State.reset.md5 with
      work := { Md5Work.reset with a := a, b := b, c := c, d := d, x := Vector.replicate 16 x } } }

/-- The reset state with SHA-1 working variables and every schedule word set to `x`. -/
def sha1Vars (a b c d e x : Word) : State :=
  { State.reset with sha1 := { State.reset.sha1 with
      work := { Sha1Work.reset with a := a, b := b, c := c, d := d, e := e, w := Vector.replicate 80 x } } }

/-- The reset state with requests to come. -/
def presented (rs : List Request) : State := { State.reset with pending := rs }

/-- A finalised MD5 engine with the digest words of "abc" (rule R148). -/
def md5Final : State :=
  { State.reset with md5 := { State.reset.md5 with
      h := ⟨0x98500190, 0xB04FD23C, 0x7D3F96D6, 0x727FE128⟩, len := 3, fin := true } }

/-- A finalised SHA-1 engine with the digest words of "abc" (rule R137). -/
def sha1Final : State :=
  { State.reset with sha1 := { State.reset.sha1 with
      h := ⟨0xA9993E36, 0x4706816A, 0xBA3E2571, 0x7850C26C, 0x9CD0D89D⟩, len := 3, fin := true } }

/-- The MD5 working variables. -/
def vars4 (s : State) : List Word := [s.md5.work.a, s.md5.work.b, s.md5.work.c, s.md5.work.d]

/-- The SHA-1 working variables. -/
def vars5 (s : State) : List Word :=
  [s.sha1.work.a, s.sha1.work.b, s.sha1.work.c, s.sha1.work.d, s.sha1.work.e]

/-! ### WellFormed: each check refuses an ill-formed term and lets both ends of its range through -/

theorem test_wf_stepF : (Instr.md5StepF 16).wf = false ∧ (Instr.md5StepF 0).wf ∧ (Instr.md5StepF 15).wf := by decide
theorem test_wf_stepG : (Instr.md5StepG 32).wf = false ∧ (Instr.md5StepG 16).wf ∧ (Instr.md5StepG 31).wf := by decide
theorem test_wf_stepH : (Instr.md5StepH 31).wf = false ∧ (Instr.md5StepH 32).wf ∧ (Instr.md5StepH 47).wf := by decide
theorem test_wf_stepI : (Instr.md5StepI 47).wf = false ∧ (Instr.md5StepI 48).wf ∧ (Instr.md5StepI 63).wf := by decide
theorem test_wf_stepP1 : (Instr.sha1StepP1 20).wf = false ∧ (Instr.sha1StepP1 0).wf ∧ (Instr.sha1StepP1 19).wf := by
  decide
theorem test_wf_stepP2 : (Instr.sha1StepP2 19).wf = false ∧ (Instr.sha1StepP2 20).wf ∧ (Instr.sha1StepP2 39).wf := by
  decide
theorem test_wf_stepP3 : (Instr.sha1StepP3 60).wf = false ∧ (Instr.sha1StepP3 40).wf ∧ (Instr.sha1StepP3 59).wf := by
  decide
theorem test_wf_stepP4 : (Instr.sha1StepP4 80).wf = false ∧ (Instr.sha1StepP4 60).wf ∧ (Instr.sha1StepP4 79).wf := by
  decide

/-! ### Decoding. The words are written out bit by bit from rules R55, R56 and R67, and from table T9 -/

theorem test_decode_md5_commands :
    decode (.command 0b0_0000_000 .notBytes) = .ok .md5Init ∧
    decode (.command 0b0_0000_001 (.bytes abc)) = .ok (.md5Update (.bytes abc)) ∧
    decode (.command 0b0_0000_010 .notBytes) = .ok .md5Digest ∧
    decode (.command 0b0_0000_011 .notBytes) = .ok .md5Hex := ⟨rfl, rfl, rfl, rfl⟩
theorem test_decode_sha1_commands :
    decode (.command 0b1_0000_000 .notBytes) = .ok .sha1Init ∧
    decode (.command 0b1_0000_001 .notBytes) = .ok (.sha1Update .notBytes) ∧
    decode (.command 0b1_0000_010 .notBytes) = .ok .sha1Digest ∧
    decode (.command 0b1_0000_011 .notBytes) = .ok .sha1Hex := ⟨rfl, rfl, rfl, rfl⟩
theorem test_decode_reserved_op :
    decode (.command 0b0_0000_100 .notBytes) = .error .reservedOp ∧
    decode (.command 0b0_0000_111 .notBytes) = .error .reservedOp ∧
    decode (.command 0b1_0000_100 .notBytes) = .error .reservedOp := ⟨rfl, rfl, rfl⟩
theorem test_decode_reserved_bits :
    decode (.command 0b0_0001_000 .notBytes) = .error .reservedBits ∧
    decode (.command 0b0_1000_000 .notBytes) = .error .reservedBits ∧
    decode (.command 0b0_1111_011 .notBytes) = .error .reservedBits ∧
    decode (.command 0b1_1111_111 .notBytes) = .error .reservedBits := ⟨rfl, rfl, rfl, rfl⟩
theorem test_decode_md5_steps :
    decode (.md5Index 0b00_1111) = .ok (.md5StepF 15) ∧ decode (.md5Index 0b01_0000) = .ok (.md5StepG 16) ∧
    decode (.md5Index 0b10_1111) = .ok (.md5StepH 47) ∧ decode (.md5Index 0b11_0000) = .ok (.md5StepI 48) :=
  ⟨rfl, rfl, rfl, rfl⟩
theorem test_decode_sha1_steps :
    decode (.sha1Index 19) = .ok (.sha1StepP1 19) ∧ decode (.sha1Index 20) = .ok (.sha1StepP2 20) ∧
    decode (.sha1Index 59) = .ok (.sha1StepP3 59) ∧ decode (.sha1Index 60) = .ok (.sha1StepP4 60) ∧
    decode (.sha1Index 79) = .ok (.sha1StepP4 79) ∧ decode (.sha1Index 80) = .error .noSuchStep :=
  ⟨rfl, rfl, rfl, rfl, rfl, rfl⟩
theorem test_encode_commands :
    (encode .md5Hex = .command 0x03 (.bytes [])) ∧ (encode (.sha1Update .notBytes) = .command 0x81 .notBytes) ∧
    encode (.md5StepI 63) = .md5Index 63 ∧ encode (.sha1StepP1 19) = .sha1Index 19 := ⟨rfl, rfl, rfl, rfl⟩
theorem test_table_words :
    decodeTableWord 8 0x83 = some .sha1Hex ∧ decodeTableWord 8 0x01 = some (.md5Update (.bytes [])) ∧
    decodeTableWord 8 0x15 = some (.md5StepG 21) ∧ decodeTableWord 32 0x10 = some (.md5StepG 16) ∧
    decodeTableWord 6 0x00 = some (.md5StepF 0) ∧ decodeTableWord 2 3 = some (.sha1StepP4 60) ∧
    decodeTableWord 8 0xFF = none := ⟨rfl, rfl, rfl, rfl, rfl, rfl, rfl⟩

/-! ### Word operations and byte order (table T1 of 95_test_vectors.md, rule R82) -/

theorem test_rotl32 :
    rotl32 0x12345678 1 = 0x2468ACF0 ∧ rotl32 0x12345678 7 = 0x1A2B3C09 ∧ rotl32 0x12345678 23 = 0x3C091A2B ∧
    rotl32 0x12345678 30 = 0x048D159E := by decide
theorem test_not : ~~~(0x67452301 : Word) = 0x98BADCFE := by decide
theorem test_md5_functions :
    mixF 0xFFFF0000 0x00FFFF00 0x0F0F0F0F = 0x00FF0F0F ∧ mixG 0xFFFF0000 0x00FFFF00 0x0F0F0F0F = 0x0FFFF000 ∧
    mixH 0xFFFF0000 0x00FFFF00 0x0F0F0F0F = 0xF00FF00F ∧ mixI 0xFFFF0000 0x00FFFF00 0x0F0F0F0F = 0xFF000FF0 := by
  decide
theorem test_sha1_functions :
    mixF1 0xFFFF0000 0x00FFFF00 0x0F0F0F0F = 0x00FF0F0F ∧ mixF2 0xFFFF0000 0x00FFFF00 0x0F0F0F0F = 0xF00FF00F ∧
    mixF3 0xFFFF0000 0x00FFFF00 0x0F0F0F0F = 0x0FFF0F00 ∧ mixF4 0xFFFF0000 0x00FFFF00 0x0F0F0F0F = 0xF00FF00F := by
  decide
theorem test_bytes_of_words :
    le32bytes 0xD98C1DD4 = [0xd4, 0x1d, 0x8c, 0xd9] ∧ be32bytes 0xA9993E36 = [0xa9, 0x99, 0x3e, 0x36] := by decide
theorem test_bytes_of_64 :
    le64bytes 0x0123456789ABCDEF = [0xef, 0xcd, 0xab, 0x89, 0x67, 0x45, 0x23, 0x01] ∧
    be64bytes 0x0123456789ABCDEF = [0x01, 0x23, 0x45, 0x67, 0x89, 0xab, 0xcd, 0xef] := by decide

/-! ### Blocks, schedule, padding -/

/-- The padded block of "abc" of the MD5 engine (rule R107). -/
def abcMd5Block : Block := blockOf ((abc ++ [0x80]) ++ List.replicate 52 0 ++ [0x18, 0, 0, 0, 0, 0, 0, 0])

/-- The padded block of "abc" of the SHA-1 engine (rule R127). -/
def abcSha1Block : Block := blockOf ((abc ++ [0x80]) ++ List.replicate 52 0 ++ [0, 0, 0, 0, 0, 0, 0, 0x18])

/-- Rule R107's example. -/
theorem test_load_le :
    (loadLe abcMd5Block).toList = [0x80636261] ++ List.replicate 13 0 ++ [0x00000018, 0] := by decide +kernel
/-- Rule R128's examples. -/
theorem test_schedule :
    let w := (sha1Load abcSha1Block Sha1Work.reset).w
    w[0] = 0x61626380 ∧ w[15] = 0x18 ∧ w[16] = 0xC2C4C700 ∧ w[17] = 0 ∧ w[18] = 0x30 ∧ w[19] = 0x85898E01 ∧
    w[79] = 0x822E0879 := by decide +kernel
/-- Table T4, 55 bytes: one block, no zero byte. -/
theorem test_pad_55 :
    memRead (padTail lenFieldMd5 (rep61 55) 55 (Vector.replicate 128 0xEE)) 0 64 =
      rep61 55 ++ [0x80, 0xb8, 0x01, 0, 0, 0, 0, 0, 0] := by decide +kernel
/-- Table T4, 56 bytes: two blocks, 63 zero bytes. -/
theorem test_pad_56 :
    memRead (padTail lenFieldSha1 (rep61 56) 56 (Vector.replicate 128 0xEE)) 0 128 =
      rep61 56 ++ [0x80] ++ List.replicate 63 0 ++ [0, 0, 0, 0, 0, 0, 0x01, 0xc0] := by decide +kernel

/-! ### Steps: the worked examples of rules R114 to R117 and R133 to R136 -/

theorem test_stepF : passes (exec (.md5StepF 0) (md5Vars 0x67452301 0xEFCDAB89 0x98BADCFE 0x10325476 0x80)) (fun t =>
    vars4 t == [0x10325476, 0xA5202774, 0xEFCDAB89, 0x98BADCFE] && t.md5.work.temp == 0xB5527BEB &&
    t.md5.work.j == 1) = true := by decide +kernel
theorem test_stepG : passes (exec (.md5StepG 16) (md5Vars 0xF56C7CF1 0xD6819C6A 0x5AA53F75 0x374943A7 0)) (fun t =>
    vars4 t == [0x374943A7, 0x1C7D7513, 0xD6819C6A, 0x5AA53F75] && t.md5.work.temp == 0x45FBD8A9) = true := by
  decide +kernel
theorem test_stepH : passes (exec (.md5StepH 32) (md5Vars 0x13707036 0xA2205F1F 0x1C31C384 0xAE7813DB 0)) (fun t =>
    vars4 t == [0xAE7813DB, 0xDF63EAA1, 0xA2205F1F, 0x1C31C384] && t.md5.work.temp == 0x3D438B82) = true := by
  decide +kernel
theorem test_stepI : passes (exec (.md5StepI 48) (md5Vars 0x3F55EDFD 0xCA7D2DBD 0x68D84EA2 0x22A31F54 0x80)) (fun t =>
    vars4 t == [0x22A31F54, 0x93AA2577, 0xCA7D2DBD, 0x68D84EA2] && t.md5.work.temp == 0xC92CF7BA) = true := by
  decide +kernel
theorem test_stepP1 :
    passes (exec (.sha1StepP1 0) (sha1Vars 0x67452301 0xEFCDAB89 0x98BADCFE 0x10325476 0xC3D2E1F0 0x61626380)) (fun t =>
      vars5 t == [0x0116FC33, 0x67452301, 0x7BF36AE2, 0x98BADCFE, 0x10325476] && t.sha1.work.f == 0x98BADCFE &&
      t.sha1.work.t == 1) = true := by decide +kernel
theorem test_stepP2 :
    passes (exec (.sha1StepP2 20) (sha1Vars 0xFD9E1D7D 0xDC64901D 0x20AA99CA 0xD3A49608 0xC82F758B 0)) (fun t =>
      vars5 t == [0x1A37B0CA, 0xFD9E1D7D, 0x77192407, 0x20AA99CA, 0xD3A49608] && t.sha1.work.f == 0x2F6A9FDF) =
        true := by decide +kernel
theorem test_stepP3 :
    passes (exec (.sha1StepP3 40) (sha1Vars 0x32DE1CBA 0x4C986405 0xF718E5CF 0x03D447F6 0xF72EEC32 0xD2E138C4))
      (fun t => vars5 t == [0xFC87DEDF, 0x32DE1CBA, 0x53261901, 0xF718E5CF, 0x03D447F6] &&
        t.sha1.work.f == 0x479865C7) = true := by decide +kernel
theorem test_stepP4 :
    passes (exec (.sha1StepP4 60) (sha1Vars 0x3F52DE5A 0x09D785FD 0x3498BFD4 0xF211824F 0xD79915AB 0x7BA06619))
      (fun t => vars5 t == [0xD756C147, 0x3F52DE5A, 0x4275E17F, 0x3498BFD4, 0xF211824F] &&
        t.sha1.work.f == 0xCF5EB866) = true := by decide +kernel
/-- Table T2: step 0 of "abc" after the load and start of a compression. -/
theorem test_first_step_of_abc :
    let w := md5Issue (md5Start ivMd5 (md5Load abcMd5Block Md5Work.reset))
    [w.a, w.b, w.c, w.d] = [0x10325476, 0xD6D117B4, 0xEFCDAB89, 0x98BADCFE] := by decide +kernel
theorem test_step_index_past_the_end : faults (step (presented [.issue (.sha1Index 80)])) .noSuchStep = true := by
  decide +kernel

/-! ### Commands, at most two tests each -/

/-- `INIT` in the middle of a message (rule R146). -/
theorem test_md5_init : passes (exec .md5Init (md5Tail abc 3)) (fun t =>
    t.md5.h == ivMd5 && t.md5.buf == [] && t.md5.len == 0 && !t.md5.fin && t.responses == [⟨0x00, []⟩]) = true := by
  decide +kernel
/-- `INIT` of a finalised engine (rule R150, table of rule R160). -/
theorem test_sha1_init : passes (exec .sha1Init sha1Final) (fun t =>
    t.sha1.h == ⟨0x67452301, 0xEFCDAB89, 0x98BADCFE, 0x10325476, 0xC3D2E1F0⟩ && t.sha1.len == 0 && !t.sha1.fin) =
      true := by decide +kernel
/-- Rule R147's worked example. -/
theorem test_md5_update_abc : passes (exec (.md5Update (.bytes abc)) State.reset) (fun t =>
    t.md5.buf == abc && t.md5.len == 3 && t.md5.h == ivMd5 && t.responses == [⟨0x00, []⟩]) = true := by
  decide +kernel
/-- Program P4: 63 bytes after a tail of 37 complete a block of old and new bytes. -/
theorem test_md5_update_straddles :
    let bytes := (List.range 100).map fun n => BitVec.ofNat 8 n
    passes (exec (.md5Update (.bytes (bytes.drop 37))) (md5Tail (bytes.take 37) 37)) (fun t =>
      t.md5.h == ⟨0x9144D9CA, 0xD901E4C9, 0x72FC5B38, 0x625FF51E⟩ && t.md5.buf == bytes.drop 64 && t.md5.len == 100) =
        true := by decide +kernel
/-- Rule R151's worked example. -/
theorem test_sha1_update_block : passes (exec (.sha1Update (.bytes (rep61 64))) State.reset) (fun t =>
    t.sha1.h == ⟨0xDA4968EB, 0x2E377C1F, 0x884E8F52, 0x83524BEB, 0xE74EBDBD⟩ && t.sha1.buf == [] && t.sha1.len == 64) =
      true := by decide +kernel
/-- Table T8: INVALID_INPUT comes before FINALIZED_STATE, and an empty payload is refused too. -/
theorem test_update_errors :
    passes (exec (.md5Update .notBytes) md5Final) (fun t => t.responses == [⟨0x01, []⟩] && t.md5.fin) &&
    passes (exec (.md5Update (.bytes [])) md5Final) (fun t =>
      t.responses == [⟨0x02, []⟩] && t.md5.h == md5Final.md5.h) = true := by decide +kernel
/-- Rule R148's worked example. -/
theorem test_md5_digest_abc : passes (exec .md5Digest (md5Tail abc 3)) (fun t =>
    t.md5.h == ⟨0x98500190, 0xB04FD23C, 0x7D3F96D6, 0x727FE128⟩ && t.md5.buf == [] && t.md5.len == 3 && t.md5.fin &&
    t.responses == [⟨0x00, hexBytes 16 0x900150983cd24fb0d6963f7d28e17f72⟩]) = true := by decide +kernel
/-- Table T5, 56 bytes: two blocks of padding. -/
theorem test_md5_digest_56 : passes (exec .md5Digest (md5Tail (rep61 56) 56)) (fun t =>
    t.responses == [⟨0x00, hexBytes 16 0x3b0c8ac703f828b04c6c197006d17218⟩]) = true := by decide +kernel
/-- Vector V1. -/
theorem test_md5_hex_empty : passes (exec .md5Hex State.reset) (fun t =>
    t.responses == [⟨0x00, hexText 32 0xd41d8cd98f00b204e9800998ecf8427e⟩]) = true := by decide +kernel
/-- Table T8: a second HEX. -/
theorem test_md5_hex_again : passes (exec .md5Hex md5Final) (fun t =>
    t.responses == [⟨0x00, hexText 32 0x900150983cd24fb0d6963f7d28e17f72⟩] && t.md5.h == md5Final.md5.h) = true := by
  decide +kernel
/-- Rule R152's worked example, vector V4 as corrected by C2. -/
theorem test_sha1_digest_abc : passes (exec .sha1Digest (sha1Tail abc 3)) (fun t =>
    t.responses == [⟨0x00, hexBytes 20 0xa9993e364706816aba3e25717850c26c9cd0d89d⟩] && t.sha1.fin) = true := by
  decide +kernel
/-- Vector V5, "The quick brown fox jumps over the lazy dog". -/
theorem test_sha1_hex_fox :
    passes (exec .sha1Hex (sha1Tail (hexBytes 43
        0x54686520717569636b2062726f776e20666f78206a756d7073206f76657220746865206c617a7920646f67) 43)) (fun t =>
      t.responses == [⟨0x00, hexText 40 0x2fd4e1c67a2d28fced849ee1bb76e7391b93eb12⟩]) = true := by decide +kernel
/-- Table T8: `.byte 0x7F`. -/
theorem test_illegal_command : passes (step (presented [.issue (.command 0x7F (.bytes abc))])) (fun t =>
    t.responses == [⟨0x03, []⟩] && t.md5.buf == [] && t.sha1.buf == [] && t.pending == []) = true := by decide +kernel
/-- The pseudo-command `MD5.HASH` is INIT, UPDATE, DIGEST (rule R71). -/
theorem test_hash_script :
    md5Hash (.bytes abc) = [.issue (.command 0x00 (.bytes [])), .issue (.command 0x01 (.bytes abc)),
      .issue (.command 0x02 (.bytes []))] ∧
    sha1HashHex .notBytes = [.issue (.command 0x80 (.bytes [])), .issue (.command 0x81 .notBytes),
      .issue (.command 0x83 (.bytes []))] := ⟨rfl, rfl⟩
/-- A table word placed as the next request is run first after reset. -/
theorem test_withFetchWord : passes (step (State.reset.withFetchWord 8 0x80)) (fun t =>
    t.responses == [⟨0x00, []⟩] && t.pending == []) = true := by decide +kernel
/-- An UPDATE past MAX_MSG is refused, one that reaches it runs (entry U3). -/
theorem test_longest_message :
    refuses (exec (.md5Update (.bytes [0x61])) (md5Tail [] 0x1FFFFFFFFFFFFFFF)) .messageTooLong &&
    passes (exec (.md5Update (.bytes [0x61])) (md5Tail [] 0x1FFFFFFFFFFFFFFE)) (fun t =>
      t.md5.len == 0x1FFFFFFFFFFFFFFF) = true := by decide +kernel

/-! ### Witnesses: concrete states and operands that meet the hypotheses of each statement, clause by clause -/

/-- ReservedCommandWordsAnswerIllegalCommand: a reserved `rsv`, a reserved `op`, and a legal word. -/
theorem test_witness_reserved_words :
    (presented [.issue (.command 0x08 .notBytes)]).pending = .issue (.command 0x08 .notBytes) :: [] ∧
    ((0x08 : BitVec 8).extractLsb' 3 4 ≠ 0 ∨ 4 ≤ ((0x08 : BitVec 8).extractLsb' 0 3).toNat) ∧
    ((0x84 : BitVec 8).extractLsb' 3 4 ≠ 0 ∨ 4 ≤ ((0x84 : BitVec 8).extractLsb' 0 3).toNat) ∧
    ¬ ((0x83 : BitVec 8).extractLsb' 3 4 ≠ 0 ∨ 4 ≤ ((0x83 : BitVec 8).extractLsb' 0 3).toNat) := by
  refine ⟨rfl, ?_, ?_, ?_⟩ <;> decide

/-- DecodeOfEncodeIsTheInstruction: a command and both ends of a phase of each engine. -/
theorem test_witness_well_formed :
    (Instr.md5Update .notBytes).wf ∧ (Instr.md5StepG 16).wf ∧ (Instr.md5StepG 31).wf ∧ (Instr.sha1StepP4 60).wf ∧
    (Instr.sha1StepP4 79).wf := by decide

/-- EncodeOfDecodeIsTheWord: each of the three kinds of word. -/
theorem test_witness_decodes :
    decode (.md5Index 63) = .ok (.md5StepI 63) ∧ decode (.sha1Index 79) = .ok (.sha1StepP4 79) ∧
    decode (.command 0x81 (.bytes abc)) = .ok (.sha1Update (.bytes abc)) ∧
    (0x81 : BitVec 8).extractLsb' 0 3 = 1 := ⟨rfl, rfl, rfl, by decide⟩

/-- Md5StepKindIsSelectedByTheIndex, Md5StepResults, RomTables: both ends of every phase. -/
theorem test_witness_md5_phases :
    (0 : BitVec 6).toNat < 16 ∧ (15 : BitVec 6).toNat < 16 ∧
    (16 ≤ (16 : BitVec 6).toNat ∧ (16 : BitVec 6).toNat < 32) ∧ (16 ≤ (31 : BitVec 6).toNat ∧ (31 : BitVec 6).toNat < 32) ∧
    (32 ≤ (32 : BitVec 6).toNat ∧ (32 : BitVec 6).toNat < 48) ∧ (32 ≤ (47 : BitVec 6).toNat ∧ (47 : BitVec 6).toNat < 48) ∧
    48 ≤ (48 : BitVec 6).toNat ∧ 48 ≤ (63 : BitVec 6).toNat := by decide

/-- Sha1StepKindIsSelectedByTheIndex, Sha1StepResults: both ends of every phase. -/
theorem test_witness_sha1_phases :
    (0 : BitVec 7).toNat < 20 ∧ (19 : BitVec 7).toNat < 20 ∧
    (20 ≤ (20 : BitVec 7).toNat ∧ (20 : BitVec 7).toNat < 40) ∧ (20 ≤ (39 : BitVec 7).toNat ∧ (39 : BitVec 7).toNat < 40) ∧
    (40 ≤ (40 : BitVec 7).toNat ∧ (40 : BitVec 7).toNat < 60) ∧ (40 ≤ (59 : BitVec 7).toNat ∧ (59 : BitVec 7).toNat < 60) ∧
    (60 ≤ (60 : BitVec 7).toNat ∧ (60 : BitVec 7).toNat < 80) ∧ (60 ≤ (79 : BitVec 7).toNat ∧ (79 : BitVec 7).toNat < 80) := by
  decide

/-- StepRunsTheDecodedInstruction: a request and a table word. -/
theorem test_witness_step_runs :
    (presented [.issue (.command 0x00 .notBytes)]).pending = .issue (.command 0x00 .notBytes) :: [] ∧
    decode (.command 0x00 .notBytes) = .ok .md5Init ∧ decodeTableWord 8 0x80 = some .sha1Init := ⟨rfl, rfl, rfl⟩

/-- IdleMachineKeepsItsState, HardwareResetInitialisesBothEngines. -/
theorem test_witness_idle_and_reset : State.reset.pending = [] ∧ (presented [.reset]).pending = .reset :: [] := ⟨rfl, rfl⟩

/-- Rotl32IsTheArithmeticRotation, the mixing functions, LengthFieldBytes: the ends of the ranges. -/
theorem test_witness_ranges :
    (1 ≤ 1 ∧ 1 ≤ 31) ∧ (1 ≤ 31 ∧ 31 ≤ 31) ∧ 0 < 32 ∧ 31 < 32 ∧ 0 < 8 ∧ 7 < 8 ∧
    (0x1FFFFFFFFFFFFFFF : BitVec 64).toNat ≤ 2 ^ 61 - 1 := by decide

/-- MicroOpsOutsideTheirPhaseStop: the nearest index outside each phase, and the first index past the steps. -/
theorem test_witness_outside_phase :
    (16 : BitVec 6).toNat / 16 ≠ 0 ∧ (15 : BitVec 6).toNat / 16 ≠ 1 ∧ (48 : BitVec 6).toNat / 16 ≠ 2 ∧
    (47 : BitVec 6).toNat / 16 ≠ 3 ∧ (20 : BitVec 7).toNat / 20 ≠ 0 ∧ (19 : BitVec 7).toNat / 20 ≠ 1 ∧
    (60 : BitVec 7).toNat / 20 ≠ 2 ∧ (80 : BitVec 7).toNat / 20 ≠ 3 ∧
    (presented [.issue (.sha1Index 80)]).pending = .issue (.sha1Index 80) :: [] ∧ 80 ≤ (80 : BitVec 7).toNat := by
  refine ⟨?_, ?_, ?_, ?_, ?_, ?_, ?_, ?_, rfl, ?_⟩ <;> decide

/-- Md5MicroOpsRunACompression: a machine with a loaded block and the sixty-four step requests to come. -/
theorem test_witness_md5_steps :
    ∃ s : State, s.md5.work = md5Start s.md5.h (md5Load abcMd5Block Md5Work.reset) ∧
      s.pending = md5StepRequests ++ [] :=
  ⟨{ State.reset with
      md5 := { State.reset.md5 with work := md5Start ivMd5 (md5Load abcMd5Block Md5Work.reset) }
      pending := md5StepRequests ++ [] }, rfl, rfl⟩

/-- Sha1MicroOpsRunACompression: a machine with a loaded block and the eighty step requests to come. -/
theorem test_witness_sha1_steps :
    ∃ s : State, s.sha1.work = sha1Start s.sha1.h (sha1Load abcSha1Block Sha1Work.reset) ∧
      s.pending = sha1StepRequests ++ [] :=
  ⟨{ State.reset with
      sha1 := { State.reset.sha1 with work := sha1Start ivSha1 (sha1Load abcSha1Block Sha1Work.reset) }
      pending := sha1StepRequests ++ [] }, rfl, rfl⟩

/-- BlockWordsAndSchedule: the all-zero block and both ends of the range of schedule words. -/
theorem test_witness_schedule :
    ∃ blk : Block, blk = Vector.replicate 64 0 ∧ (16 ≤ 16 ∧ 16 < 80) ∧ (16 ≤ 79 ∧ 79 < 80) :=
  ⟨_, rfl, by decide, by decide⟩

/-- The padding statements: both length fields, and the tails of 0, 55, 56 and 63 bytes. -/
theorem test_witness_padding :
    (lenFieldMd5 = lenFieldMd5 ∨ lenFieldMd5 = lenFieldSha1) ∧ (lenFieldSha1 = lenFieldMd5 ∨ lenFieldSha1 = lenFieldSha1) ∧
    (rep61 0).length ≤ 55 ∧ (rep61 55).length ≤ 55 ∧ (56 ≤ (rep61 56).length ∧ (rep61 56).length ≤ 63) ∧
    (56 ≤ (rep61 63).length ∧ (rep61 63).length ≤ 63) := ⟨.inl rfl, .inr rfl, by decide, by decide, by decide, by decide⟩

/-- Md5UpdateResult, Sha1UpdateResult, UpdateErrors: an engine that is finalised, and a payload that just reaches MAX_MSG. -/
theorem test_witness_update :
    md5Final.md5.fin = true ∧ sha1Final.sha1.fin = true ∧
    ((md5Tail (rep61 63) 0x1FFFFFFFFFFFFFFE).md5.fin = false ∧ (md5Tail (rep61 63) 0x1FFFFFFFFFFFFFFE).md5.buf.length ≤ 63 ∧
      (md5Tail (rep61 63) 0x1FFFFFFFFFFFFFFE).md5.len.toNat + [(0x61 : Byte)].length ≤ 2 ^ 61 - 1) ∧
    ((sha1Tail [] 0).sha1.fin = false ∧ (sha1Tail [] 0).sha1.buf.length ≤ 63 ∧
      (sha1Tail [] 0).sha1.len.toNat + ([] : List Byte).length ≤ 2 ^ 61 - 1) := by decide +kernel

/-- CompletedCommandsReleaseTheTransients: a command of each engine answered OK without a compression, and one answered
with an error. -/
theorem test_witness_release :
    isCommand .md5Init = true ∧ isMd5 .md5Init = true ∧
    isCommand (.sha1Update .notBytes) = true ∧ isMd5 (.sha1Update .notBytes) = false ∧
    passes (exec .md5Init md5Final) (fun t => t.responses == [⟨0x00, []⟩]) &&
    passes (exec (.md5Update .notBytes) md5Final) (fun t => t.responses == [⟨0x01, []⟩]) &&
    passes (exec .sha1Hex sha1Final) (fun t => (t.responses.map (·.status)) == [0x00]) &&
    passes (exec (.sha1Update .notBytes) sha1Final) (fun t => t.responses == [⟨0x01, []⟩]) = true := by decide +kernel

/-- UpdateOverTheLongestMessageIsRefused: one byte more than MAX_MSG. -/
theorem test_witness_update_over :
    ((md5Tail [] 0x1FFFFFFFFFFFFFFF).md5.fin = false ∧
      2 ^ 61 - 1 < (md5Tail [] 0x1FFFFFFFFFFFFFFF).md5.len.toNat + [(0x61 : Byte)].length) ∧
    ((sha1Tail [] 0x1FFFFFFFFFFFFFFF).sha1.fin = false ∧
      2 ^ 61 - 1 < (sha1Tail [] 0x1FFFFFFFFFFFFFFF).sha1.len.toNat + [(0x61 : Byte)].length) := by decide +kernel

/-- Md5DigestAndHexResult, Sha1DigestAndHexResult: tails at the ends of their range, and finalised engines. -/
theorem test_witness_digest :
    (State.reset.md5.buf.length ≤ 63 ∧ State.reset.md5.fin = false) ∧
    ((sha1Tail (rep61 63) 63).sha1.buf.length ≤ 63 ∧ (sha1Tail (rep61 63) 63).sha1.fin = false) ∧
    (md5Final.md5.buf.length ≤ 63 ∧ md5Final.md5.fin = true) ∧
    (sha1Final.sha1.buf.length ≤ 63 ∧ sha1Final.sha1.fin = true) := by decide +kernel

/-- HexEncodeGivesTwoDigitsPerByte: the ends of both ranges of a hex digit, and an index of a digest. -/
theorem test_witness_hex :
    (0 : BitVec 4).toNat ≤ 9 ∧ (9 : BitVec 4).toNat ≤ 9 ∧ 10 ≤ (10 : BitVec 4).toNat ∧ 10 ≤ (15 : BitVec 4).toNat ∧
    2 < abc.length := by decide

/-- StreamingEquivalence: chunks of "abc", one of them empty, to each engine. -/
theorem test_witness_streaming :
    [[0x61], [], [0x62, 0x63]].flatten = abc ∧ abc.length ≤ 2 ^ 61 - 1 ∧
    (presented (md5Feeding [[0x61], [], [0x62, 0x63]] ++ requestOf .md5Digest :: [])).pending =
      md5Feeding [[0x61], [], [0x62, 0x63]] ++ requestOf .md5Digest :: [] ∧
    (presented (sha1Feeding [[0x61], [], [0x62, 0x63]] ++ requestOf .sha1Digest :: [])).pending =
      sha1Feeding [[0x61], [], [0x62, 0x63]] ++ requestOf .sha1Digest :: [] := ⟨rfl, by decide, rfl, rfl⟩

/-- An engine with the tail "abc" is at the message "abc". -/
theorem test_witness_md5_at_abc : Md5At abc (md5Tail abc 3) :=
  ⟨by decide, by decide, fun _ => ⟨rfl, rfl⟩, nofun⟩

/-- An engine with the tail "abc" is at the message "abc". -/
theorem test_witness_sha1_at_abc : Sha1At abc (sha1Tail abc 3) :=
  ⟨by decide, by decide, fun _ => ⟨rfl, rfl⟩, nofun⟩

/-- A finalised engine that holds the digest words of "abc" (rules R137, R148) is at the message "abc". -/
theorem test_witness_md5_final_at_abc : Md5At abc md5Final := by
  have h : chainMd5 (padMessage lenFieldMd5 abc) = ⟨0x98500190, 0xB04FD23C, 0x7D3F96D6, 0x727FE128⟩ := by
    decide +kernel
  exact ⟨by decide, by decide, nofun, fun _ => ⟨rfl, h.symm⟩⟩

/-- A finalised engine that holds the digest words of "abc" is at the message "abc". -/
theorem test_witness_sha1_final_at_abc : Sha1At abc sha1Final := by
  have h : chainSha1 (padMessage lenFieldSha1 abc) = ⟨0xA9993E36, 0x4706816A, 0xBA3E2571, 0x7850C26C, 0x9CD0D89D⟩ := by
    decide +kernel
  exact ⟨by decide, by decide, nofun, fun _ => ⟨rfl, h.symm⟩⟩

/-- A machine whose MD5 engine is finalised and whose SHA-1 engine holds a tail, with an UPDATE to come. -/
def mixed : State :=
  { md5Final with sha1 := (sha1Tail abc 3).sha1, pending := [.issue (.command 0x81 (.bytes []))] }

/-- StepKeepsTheInvariant: a state with the invariant, one engine before and one after finalisation, that steps. -/
theorem test_witness_invariant : Inv mixed ∧ mixed.md5.fin = true ∧ mixed.sha1.fin = false ∧ ∃ t, step mixed = .next t :=
  ⟨⟨⟨abc, test_witness_md5_final_at_abc⟩, ⟨abc, test_witness_sha1_at_abc⟩⟩, rfl, rfl, ⟨_, rfl⟩⟩

/-- CommandsMoveTheMessage: INIT, an UPDATE, DIGEST and HEX of each engine from a state at a message. -/
theorem test_witness_commands_move :
    (∃ t, exec .md5Init mixed = .next t) ∧ (∃ t, exec .sha1Init mixed = .next t) ∧
    (Md5At abc (md5Tail abc 3) ∧ (md5Tail abc 3).md5.fin = false ∧
      ∃ t, exec (.md5Update (.bytes abc)) (md5Tail abc 3) = .next t) ∧
    (Sha1At abc (sha1Tail abc 3) ∧ (sha1Tail abc 3).sha1.fin = false ∧
      ∃ t, exec (.sha1Update (.bytes abc)) (sha1Tail abc 3) = .next t) ∧
    (∃ t, exec .md5Digest (md5Tail abc 3) = .next t) ∧ (∃ t, exec .md5Hex md5Final = .next t) ∧
    (∃ t, exec .sha1Digest (sha1Tail abc 3) = .next t) ∧ ∃ t, exec .sha1Hex sha1Final = .next t :=
  ⟨⟨_, rfl⟩, ⟨_, rfl⟩, ⟨test_witness_md5_at_abc, rfl, ⟨_, rfl⟩⟩, ⟨test_witness_sha1_at_abc, rfl, ⟨_, rfl⟩⟩, ⟨_, rfl⟩, ⟨_, rfl⟩,
    ⟨_, rfl⟩, ⟨_, rfl⟩⟩

/-- InstructionsLeaveTheOtherEngineAlone, EnginesInterleaveFreely: an instruction of each engine, one after the other. -/
theorem test_witness_interleave :
    isMd5 .md5Init = true ∧ isMd5 .sha1Init = false ∧
    ∃ a b, exec .md5Init mixed = .next a ∧ exec .sha1Init a = .next b := ⟨rfl, rfl, _, _, rfl, rfl⟩

/-- CommandsDependOnlyOnTheirEnginesState: two machines that agree on an engine but for its transients, a command that
runs and one that is refused on them. -/
theorem test_witness_same_state :
    isCommand .md5Init = true ∧ isCommand .sha1Digest = true ∧ isCommand (.md5Update (.bytes [0x61])) = true ∧
    sameArch (md5Tail abc 3).md5 { (md5Tail abc 3).md5 with work := (md5Vars 1 2 3 4 5).md5.work } ∧
    sameArch (sha1Tail abc 3).sha1 { (sha1Tail abc 3).sha1 with work := (sha1Vars 1 2 3 4 5 6).sha1.work } ∧
    (∃ t, exec .md5Init (md5Tail abc 3) = .next t) ∧ (∃ t, exec .sha1Digest (sha1Tail abc 3) = .next t) ∧
    exec (.md5Update (.bytes [0x61])) (md5Tail [] 0x1FFFFFFFFFFFFFFF) = .refused .messageTooLong :=
  ⟨rfl, rfl, rfl, ⟨rfl, rfl, rfl, rfl⟩, ⟨rfl, rfl, rfl, rfl⟩, ⟨_, rfl⟩, ⟨_, rfl⟩, rfl⟩

/-- FinalisedEngineIsFrozen: an instruction other than INIT on a finalised engine of each kind. -/
theorem test_witness_finalised :
    (md5Final.md5.fin = true ∧ Instr.md5Digest ≠ .md5Init ∧ ∃ t, exec .md5Digest md5Final = .next t) ∧
    (sha1Final.sha1.fin = true ∧ Instr.sha1Hex ≠ .sha1Init ∧ ∃ t, exec .sha1Hex sha1Final = .next t) :=
  ⟨⟨rfl, by decide, ⟨_, rfl⟩⟩, ⟨rfl, by decide, ⟨_, rfl⟩⟩⟩

/-- OnlyTheseInstructionsChangeTheState: H, LEN and FIN do change, by INIT of a finalised engine and by a DIGEST. -/
theorem test_witness_changes :
    passes (exec .md5Init md5Final) (fun t => t.md5.h != md5Final.md5.h && t.md5.len != md5Final.md5.len &&
      md5Final.md5.fin && !t.md5.fin) &&
    passes (exec .sha1Init sha1Final) (fun t => t.sha1.h != sha1Final.sha1.h && t.sha1.len != sha1Final.sha1.len &&
      sha1Final.sha1.fin && !t.sha1.fin) &&
    passes (exec .md5Digest (md5Tail abc 3)) (fun t => t.md5.fin && !(md5Tail abc 3).md5.fin) &&
    passes (exec .sha1Digest (sha1Tail abc 3)) (fun t => t.sha1.fin && !(sha1Tail abc 3).sha1.fin) = true := by
  decide +kernel

/-- EveryCommandGivesOneResponse, StepsAndResetGiveNoResponse: a command, a step index of each engine, and a reset, presented and carried out. -/
theorem test_witness_requests :
    (∃ t, step (presented [.issue (.command 0x01 .notBytes)]) = .next t) ∧ (0x01 : BitVec 8).extractLsb' 0 3 = 1 ∧
    (∃ t, step (presented [.issue (.md5Index 63)]) = .next t) ∧
    (∃ t, step (presented [.issue (.sha1Index 79)]) = .next t) ∧ ∃ t, step (presented [.reset]) = .next t :=
  ⟨⟨_, rfl⟩, by decide, ⟨_, rfl⟩, ⟨_, rfl⟩, ⟨_, rfl⟩⟩

end Sys2Proof.Tests
end

section
/-! SUPPORT. Both engines' compressions are lawful: each is its compression function of Machine/Message.lean on H, and
leaves everything else but the transients alone. For SHA-1 this needs that the engine's schedule, expanded in place, is
the growing list of rule R128. -/

namespace Sys2Proof.Machine

/-- Reading the schedule after one entry was written. -/
theorem schedWord_setIfInBounds (w : Vector Word 80) (i k : Nat) (x : Word) (hk : k < 80) :
    schedWord (w.setIfInBounds i x) k = if i = k then x else schedWord w k := by
  simp [schedWord, List.getD_eq_getElem?_getD, hk, List.getElem_set]

theorem sha1Schedule_length (blk : Block) (n : Nat) : (sha1Schedule blk n).length = 16 + n := by
  induction n with
  | zero => simp [sha1Schedule]
  | succ n ih => simp only [sha1Schedule, List.length_append, ih, List.length_singleton]; omega

/-- After `n` expansions the first `16 + n` schedule words are those of the growing list, whatever the schedule held
before the block was loaded (rules R127, R128). -/
theorem schedWord_sha1Expand (blk : Block) (w : Vector Word 80) (n : Nat) (hn : n ≤ 64) (i : Nat) (hi : i < 16 + n) :
    schedWord (sha1Expand n (sha1LoadWords blk w)) i = (sha1Schedule blk n).getD i 0 := by
  induction n generalizing i with
  | zero =>
    simp [sha1Expand, sha1LoadWords, sha1Schedule, schedWord, List.getD_eq_getElem?_getD, hi,
      show i < 80 by omega, Vector.get_eq_getElem]
  | succ n ih =>
    have hlen := sha1Schedule_length blk n
    rw [sha1Expand, sha1Expand1, schedWord_setIfInBounds _ _ _ _ (by omega), sha1Schedule]
    by_cases h : 16 + n = i
    · subst h
      rw [if_pos rfl, List.getD_append_right _ _ _ _ (by omega), hlen, Nat.sub_self, List.getD_cons_zero,
        ih (by omega) _ (by omega), ih (by omega) _ (by omega), ih (by omega) _ (by omega), ih (by omega) _ (by omega),
        show 16 + n - 3 = 13 + n by omega, show 16 + n - 8 = 8 + n by omega, show 16 + n - 14 = 2 + n by omega,
        show 16 + n - 16 = n by omega]
    · rw [if_neg h, List.getD_append _ _ _ _ (by omega), ih (by omega) i (by omega)]

/-- The loaded and expanded schedule, as a list, is `sha1Schedule`. -/
theorem sha1Load_schedule (blk : Block) (w : Sha1Work) : (sha1Load blk w).w.toList = sha1Schedule blk 64 := by
  refine List.ext_getElem (by simp [sha1Schedule_length]) fun i h₁ h₂ => ?_
  have h : (sha1Load blk w).w.toList.getD i 0 = (sha1Schedule blk 64).getD i 0 :=
    schedWord_sha1Expand blk w.w 64 (Nat.le_refl _) i (by simpa using h₁)
  rwa [List.getD_eq_getElem _ _ h₁, List.getD_eq_getElem _ _ h₂] at h

/-- The MD5 engine's compression is `Compress_MD5` on H (rules R106, R121). -/
theorem md5Compress_h (e : Engine Md5H Md5Work) (b : Block) : (md5Compress e b).h = compressMd5 e.h b := by
  obtain ⟨-, -, -, -, hv⟩ := md5Run_spec e.h (md5Load b e.work) 64 (Nat.le_refl _)
  rw [md5Compress_eq, compressMd5, show loadLe b = (md5Load b e.work).x from rfl, ← hv]
  simp only [md5Feed, add32]

/-- The SHA-1 engine's compression is `Compress_SHA1` on H (rules R126, R140). -/
theorem sha1Compress_h (e : Engine Sha1H Sha1Work) (b : Block) : (sha1Compress e b).h = compressSha1 e.h b := by
  obtain ⟨-, -, -, -, hv⟩ := sha1Run_spec e.h (sha1Load b e.work) 80 (Nat.le_refl _)
  rw [sha1Compress_eq, compressSha1, ← sha1Load_schedule b e.work, ← hv]
  simp only [sha1Feed, add32]

theorem md5Alg_lawful : Lawful md5Alg compressMd5 where
  compress_h := by simpa using md5Compress_h
  compress_buf e b := by simp [md5Compress_frame]
  compress_len e b := by simp [md5Compress_frame]
  compress_fin e b := by simp [md5Compress_frame]
  compress_fresh e b := by simp [md5Compress_frame]
  compress_pad e b := by simp [md5Compress_frame]
  pad_setPad _ _ := rfl

theorem sha1Alg_lawful : Lawful sha1Alg compressSha1 where
  compress_h := by simpa using sha1Compress_h
  compress_buf e b := by simp [sha1Compress_frame]
  compress_len e b := by simp [sha1Compress_frame]
  compress_fin e b := by simp [sha1Compress_frame]
  compress_fresh e b := by simp [sha1Compress_frame]
  compress_pad e b := by simp [sha1Compress_frame]
  pad_setPad _ _ := rfl

end Sys2Proof.Machine
end

section
/-! SUPPORT. The padded tail that Finalize builds holds, in its first PADLEN bytes, the tail and the padding of rule R105;
so its blocks are the last blocks of the padded message. -/

namespace Sys2Proof.Machine

/-- A write that begins at `addr` puts its bytes behind the first `addr` cells, which stay as they were. -/
theorem memWrite_take {size : Nat} (space : Vector Byte size) (addr : Nat) (v : List Byte)
    (h : addr + v.length ≤ size) :
    (memWrite space addr v).toList.take (addr + v.length) = space.toList.take addr ++ v := by
  refine List.ext_getElem (by simp; omega) fun i h₁ h₂ => ?_
  have hi : i < addr + v.length := by simp at h₁; omega
  rw [List.getElem_take, Vector.getElem_toList]
  by_cases ha : i < addr
  · rw [memWrite_outside _ _ _ _ (by omega) (.inl ha), List.getElem_append_left (by simp; omega), List.getElem_take,
      Vector.getElem_toList]
  · rw [memWrite_inside _ _ _ _ (by omega) (by omega) hi, List.getElem_append_right (by simp; omega)]
    simp [Nat.min_eq_left (show addr ≤ size by omega)]

/-- The first PADLEN bytes of the padded tail: tail, marker, zeros, length field (rule R98). -/
theorem padTail_take (lenField : BitVec 64 → List Byte) (buf : List Byte) (len : BitVec 64) (pad : PadSpace)
    (hbuf : buf.length ≤ 63) (hlf : (lenField len).length = 8) :
    (padTail lenField buf len pad).toList.take (padLen buf.length) =
      buf ++ [0x80] ++ List.replicate (padLen buf.length - 9 - buf.length) 0 ++ lenField len := by
  have hpad : buf.length + 9 ≤ padLen buf.length ∧ padLen buf.length ≤ 128 := by unfold padLen; split <;> omega
  obtain ⟨hlo, hhi⟩ := hpad
  have htail := memWrite_take pad 0 buf (by omega)
  rw [Nat.zero_add, List.take_zero, List.nil_append] at htail
  have hmarker := memWrite_take (memWrite pad 0 buf) buf.length [0x80] (by simp; omega)
  rw [htail, List.length_singleton] at hmarker
  have hzeros := memWrite_take (memWrite (memWrite pad 0 buf) buf.length [0x80]) (buf.length + 1)
    (List.replicate (padLen buf.length - 9 - buf.length) 0) (by simp; omega)
  rw [hmarker, List.length_replicate,
    show buf.length + 1 + (padLen buf.length - 9 - buf.length) = padLen buf.length - 8 by omega] at hzeros
  have hfield := memWrite_take (memWrite (memWrite (memWrite pad 0 buf) buf.length [0x80]) (buf.length + 1)
    (List.replicate (padLen buf.length - 9 - buf.length) 0)) (padLen buf.length - 8) (lenField len) (by omega)
  rw [hzeros, hlf, show padLen buf.length - 8 + 8 = padLen buf.length by omega] at hfield
  exact hfield

/-- The zeros that fill the padded tail up to PADLEN are those of rule R105. -/
theorem padLen_mod (n : Nat) : padLen (n % 64) - 9 - n % 64 = padZeros n := by
  unfold padLen padZeros
  split <;> omega

/-- The first `n` blocks of a long enough sequence are all the blocks of its first `64 * n` bytes. -/
theorem blocksOf_eq_allBlocks_take (n : Nat) (s : List Byte) (h : 64 * n ≤ s.length) :
    blocksOf n s = allBlocks (s.take (64 * n)) := by
  have hlen : (s.take (64 * n)).length = 64 * n := by simp [h]
  rw [allBlocks, hlen, Nat.mul_div_cancel_left n (by omega)]
  conv_lhs => rw [← List.take_append_drop (64 * n) s]
  exact blocksOf_append n _ _ (by omega)

theorem lenFieldMd5_length (len : BitVec 64) : (lenFieldMd5 len).length = 8 := by simp [lenFieldMd5, le64bytes]

theorem lenFieldSha1_length (len : BitVec 64) : (lenFieldSha1 len).length = 8 := by simp [lenFieldSha1, be64bytes]

/-- The blocks of a padded message: its complete blocks, then the one or two blocks of the padded tail (rules R98, R104,
R105). -/
theorem allBlocks_padMessage (lenField : BitVec 64 → List Byte) (m : List Byte) (pad : PadSpace)
    (hlf : (lenField (BitVec.ofNat 64 m.length)).length = 8) :
    allBlocks (padMessage lenField m) = allBlocks m ++
      blocksOf (padLen (tailOf m).length / 64)
        (padTail lenField (tailOf m) (BitVec.ofNat 64 m.length) pad).toList := by
  have hr := tailOf_length m
  have hdvd : 64 * (padLen (tailOf m).length / 64) = padLen (tailOf m).length ∧ padLen (tailOf m).length ≤ 128 := by
    unfold padLen; split <;> omega
  obtain ⟨hmul, hhi⟩ := hdvd
  rw [blocksOf_eq_allBlocks_take _ _ (by simpa [hmul] using hhi), hmul, padTail_take _ _ _ _ (by omega) hlf, hr,
    padLen_mod, padMessage]
  simp only [List.append_assoc]
  exact allBlocks_append _ _

end Sys2Proof.Machine
end

section
/-! SUPPORT. "The engine is at message m" (rule R31) under the engine operations INIT, Absorb and Finalize, once for both
engines; and what it gives. -/

namespace Sys2Proof.Machine

variable {η ω : Type}

/-- The state words after the complete blocks of a message, for any compression function and initial state (rules R122,
R142). -/
def chainOf (f : η → Block → η) (iv : η) (m : List Byte) : η := (allBlocks m).foldl f iv

/-- The engine is at message `m`, for the engine of `A` with compression function `f`. -/
def Alg.At (A : Alg η ω) (f : η → Block → η) (m : List Byte) (e : Engine η ω) : Prop :=
  AtMessage A.lenField (chainOf f A.iv) m e

theorem Md5At_iff (m : List Byte) (s : State) : Md5At m s ↔ md5Alg.At compressMd5 m s.md5 := (Iff.rfl)

theorem Sha1At_iff (m : List Byte) (s : State) : Sha1At m s ↔ sha1Alg.At compressSha1 m s.sha1 := (Iff.rfl)

variable {A : Alg η ω} {f : η → Block → η} {m : List Byte} {e e' : Engine η ω}

/-- "At message m" does not mention the transients. -/
theorem Alg.At.of_sameArch (hat : A.At f m e) (h : sameArch e' e) : A.At f m e' := by
  obtain ⟨hh, hbuf, hlen, hfin⟩ := h
  simpa only [Alg.At, AtMessage, hh, hbuf, hlen, hfin] using hat

/-- INIT puts an engine at the empty message (rules R146, R150). -/
theorem initEngine_at (A : Alg η ω) (f : η → Block → η) (e : Engine η ω) : A.At f [] (initEngine A e) :=
  ⟨Nat.zero_le _, rfl, fun _ => ⟨rfl, rfl⟩, nofun⟩

/-- Absorb moves an engine that is not finalised from message `m` to `m` followed by the payload (rule R154). -/
theorem absorb_at (hA : Lawful A f) {data : List Byte} (hat : A.At f m e) (hfin : e.fin = false)
    (hfit : e.len.toNat + data.length ≤ maxMsg) : A.At f (m ++ data) (absorb A data e) := by
  obtain ⟨-, hlen, hopen, -⟩ := hat
  obtain ⟨hbuf, hh⟩ := hopen hfin
  obtain ⟨ah, abuf, alen, afin, -⟩ := absorb_spec hA data e
  have hsum : (m ++ data).length = e.len.toNat + data.length := by simp [hlen]
  refine ⟨hsum ▸ hfit, ?_, fun _ => ⟨?_, ?_⟩, fun h => ?_⟩
  · rw [alen, hsum]
    unfold maxMsg at hfit
    simp only [BitVec.toNat_add, BitVec.toNat_ofNat]
    omega
  · rw [abuf, hbuf, tailOf_append m data]
  · rw [ah, hh, hbuf, chainOf, chainOf, allBlocks_append m data, List.foldl_append]
  · rw [afin, hfin] at h
    cases h

/-- Finalize leaves the engine at its message, with H the words of the whole padded message (rules R103, R105). -/
theorem finalize_at (hA : Lawful A f) (hlf : ∀ len, (A.lenField len).length = 8) (hat : A.At f m e)
    (hfin : e.fin = false) : A.At f m (finalize A e) := by
  obtain ⟨hmax, hlen, hopen, -⟩ := hat
  obtain ⟨hbuf, hh⟩ := hopen hfin
  obtain ⟨fh, fbuf, flen, ffin, -⟩ := finalize_spec hA e
  have hlen' : e.len = BitVec.ofNat 64 m.length := by rw [← hlen, BitVec.ofNat_toNat, BitVec.setWidth_eq]
  refine ⟨hmax, flen ▸ hlen, fun h => ?_, fun _ => ⟨fbuf, ?_⟩⟩
  · rw [ffin] at h
    cases h
  · rw [fh, hh, padOf, hbuf, hlen', chainOf, chainOf, allBlocks_padMessage A.lenField m (A.pad e.work) (hlf _),
      List.foldl_append]

/-- What DIGEST and HEX do to an engine leaves it at its message, finalised or not before. -/
theorem finalized_at (hA : Lawful A f) (hlf : ∀ len, (A.lenField len).length = 8) (hat : A.At f m e) :
    A.At f m (finalized A e) := by
  cases hfin : e.fin with
  | true => rwa [finalized_of_fin hfin]
  | false => rw [finalized_of_not_fin hfin]; exact finalize_at hA hlf hat hfin

/-- R31 (a), from the length of the tail. -/
theorem Alg.At.bufLen_le (hat : A.At f m e) : bufLen e ≤ 63 := by
  obtain ⟨-, -, hopen, hdone⟩ := hat
  unfold bufLen
  cases hfin : e.fin with
  | false => rw [(hopen hfin).1, tailOf_length]; omega
  | true => rw [(hdone hfin).1]; exact Nat.zero_le _

/-- R31 (b): before finalisation BUFLEN is `LEN mod 64`, and `floor(LEN / 64)` blocks have been compressed. -/
theorem Alg.At.of_not_fin (hat : A.At f m e) (hfin : e.fin = false) :
    bufLen e = e.len.toNat % 64 ∧ ∃ bs : List Block, bs.length = e.len.toNat / 64 ∧ e.h = bs.foldl f A.iv := by
  obtain ⟨-, hlen, hopen, -⟩ := hat
  obtain ⟨hbuf, hh⟩ := hopen hfin
  exact ⟨by rw [bufLen, hbuf, tailOf_length, hlen], allBlocks m, by rw [allBlocks, blocksOf_length, hlen], hh⟩

/-- R31 (c): after finalisation the buffer is empty and H holds the words of the padded message of LEN bytes. -/
theorem Alg.At.of_fin (hat : A.At f m e) (hfin : e.fin = true) :
    bufLen e = 0 ∧ m.length = e.len.toNat ∧ e.h = chainOf f A.iv (padMessage A.lenField m) := by
  obtain ⟨-, hlen, -, hdone⟩ := hat
  obtain ⟨hbuf, hh⟩ := hdone hfin
  exact ⟨by rw [bufLen, hbuf, List.length_nil], hlen.symm, hh⟩

/-- R31 (d). -/
theorem Alg.At.len_le (hat : A.At f m e) : e.len.toNat ≤ 2 ^ 61 - 1 := by
  obtain ⟨hmax, hlen, -, -⟩ := hat
  rw [hlen]
  exact hmax

end Sys2Proof.Machine
end

section
/-! SUPPORT. Everything one step can do to an engine, transients apart: it keeps it, or INIT, Absorb or Finalize moves it.
-/

namespace Sys2Proof.Machine

variable {η ω : Type}

/-- `e'` is what one step can make of engine `e`, transients apart. -/
inductive EngineMove (A : Alg η ω) (e e' : Engine η ω) : Prop
  | keep (h : sameArch e' e)
  | init (h : sameArch e' (initEngine A e))
  | absorb (data : List Byte) (hfin : e.fin = false) (hfit : e.len.toNat + data.length ≤ maxMsg)
      (h : sameArch e' (absorb A data e))
  | finalize (h : sameArch e' (finalized A e))

/-- Every engine move leads from some message to some message. -/
theorem EngineMove.exists_at {A : Alg η ω} {f : η → Block → η} {e e' : Engine η ω} (hmove : EngineMove A e e')
    (hA : Lawful A f) (hlf : ∀ len, (A.lenField len).length = 8) (hat : ∃ m, A.At f m e) : ∃ m, A.At f m e' := by
  obtain ⟨m, hat⟩ := hat
  cases hmove with
  | keep h => exact ⟨m, hat.of_sameArch h⟩
  | init h => exact ⟨[], (initEngine_at A f e).of_sameArch h⟩
  | absorb data hfin hfit h => exact ⟨m ++ data, (absorb_at hA hat hfin hfit).of_sameArch h⟩
  | finalize h => exact ⟨m, (finalized_at hA hlf hat).of_sameArch h⟩

/-- Both engines made one move each. -/
def EnginesMove (s t : State) : Prop := EngineMove md5Alg s.md5 t.md5 ∧ EngineMove sha1Alg s.sha1 t.sha1

/-- An error response moves neither engine (rule R168). -/
theorem raiseError_moves (k : ErrorKind) (s : State) : EnginesMove s (raiseError k s) :=
  ⟨.keep (by simp), .keep (by simp)⟩

/-- A step micro-operation writes only transients of the MD5 engine (rule R113). -/
theorem md5MicroOp_moves {p : Nat} {fn : Word → Word → Word → Word} {j : BitVec 6} {s t : State}
    (h : md5MicroOp p fn j s = .next t) : EnginesMove s t := by
  obtain ⟨-, rfl⟩ := md5MicroOp_next.mp h
  exact ⟨.keep ⟨rfl, rfl, rfl, rfl⟩, .keep (by simp)⟩

/-- A step micro-operation writes only transients of the SHA-1 engine (rule R132). -/
theorem sha1MicroOp_moves {p : Fin 4} {fn : Word → Word → Word → Word} {j : BitVec 7} {s t : State}
    (h : sha1MicroOp p fn j s = .next t) : EnginesMove s t := by
  obtain ⟨_, rfl⟩ := sha1MicroOp_next.mp h
  exact ⟨.keep (by simp), .keep ⟨rfl, rfl, rfl, rfl⟩⟩

theorem execMd5Update_moves {payload : Payload} {s t : State} (h : execMd5Update payload s = .next t) :
    EnginesMove s t := by
  obtain ⟨k, -, rfl⟩ | ⟨data, -, hfin, hfit, rfl⟩ := updateWith_next h
  · exact raiseError_moves k s
  · exact ⟨.absorb data hfin hfit (by simp), .keep (by simp)⟩

theorem execSha1Update_moves {payload : Payload} {s t : State} (h : execSha1Update payload s = .next t) :
    EnginesMove s t := by
  obtain ⟨k, -, rfl⟩ | ⟨data, -, hfin, hfit, rfl⟩ := updateWith_next h
  · exact raiseError_moves k s
  · exact ⟨.keep (by simp), .absorb data hfin hfit (by simp)⟩

/-- The end of a command on the MD5 engine stores that engine and keeps the other. -/
theorem complete_setMd5_moves {d : List Byte} {e : Engine Md5H Md5Work} {s : State}
    (h : EngineMove md5Alg s.md5 (release md5Alg e)) : EnginesMove s (complete md5Alg setMd5 d e s) :=
  ⟨by simpa using h, .keep (by simp)⟩

/-- The end of a command on the SHA-1 engine stores that engine and keeps the other. -/
theorem complete_setSha1_moves {d : List Byte} {e : Engine Sha1H Sha1Work} {s : State}
    (h : EngineMove sha1Alg s.sha1 (release sha1Alg e)) : EnginesMove s (complete sha1Alg setSha1 d e s) :=
  ⟨.keep (by simp), by simpa using h⟩

/-- What any instruction can do to the engines. -/
theorem exec_moves {i : Instr} {s t : State} (h : exec i s = .next t) : EnginesMove s t := by
  cases i with
  | md5Init => obtain rfl := Host.Outcome.next.inj h; exact complete_setMd5_moves (.init (by simp))
  | md5Update payload => exact execMd5Update_moves h
  | md5Digest => obtain rfl := Host.Outcome.next.inj h; exact complete_setMd5_moves (.finalize (by simp))
  | md5Hex => obtain rfl := Host.Outcome.next.inj h; exact complete_setMd5_moves (.finalize (by simp))
  | sha1Init => obtain rfl := Host.Outcome.next.inj h; exact complete_setSha1_moves (.init (by simp))
  | sha1Update payload => exact execSha1Update_moves h
  | sha1Digest => obtain rfl := Host.Outcome.next.inj h; exact complete_setSha1_moves (.finalize (by simp))
  | sha1Hex => obtain rfl := Host.Outcome.next.inj h; exact complete_setSha1_moves (.finalize (by simp))
  | md5StepF j => exact md5MicroOp_moves h
  | md5StepG j => exact md5MicroOp_moves h
  | md5StepH j => exact md5MicroOp_moves h
  | md5StepI j => exact md5MicroOp_moves h
  | sha1StepP1 j => exact sha1MicroOp_moves h
  | sha1StepP2 j => exact sha1MicroOp_moves h
  | sha1StepP3 j => exact sha1MicroOp_moves h
  | sha1StepP4 j => exact sha1MicroOp_moves h

/-- A word the decoder rejects moves neither engine. -/
theorem rejectIssue_moves {why : Reject} {s t : State} (h : rejectIssue why s = .next t) : EnginesMove s t := by
  cases why with
  | reservedBits => obtain rfl := Host.Outcome.next.inj h; exact raiseError_moves .illegalCommand s
  | reservedOp => obtain rfl := Host.Outcome.next.inj h; exact raiseError_moves .illegalCommand s
  | noSuchStep => cases h

/-- A hardware reset moves both engines as INIT does (rule R186). -/
theorem hardwareReset_moves (s : State) : EnginesMove s (hardwareReset s) :=
  ⟨.init (by simp [hardwareReset]), .init (by simp [hardwareReset])⟩

theorem runRequest_moves {r : Request} {s t : State} (h : runRequest r s = .next t) : EnginesMove s t := by
  cases r with
  | reset => obtain rfl := Host.Outcome.next.inj h; exact hardwareReset_moves s
  | issue w =>
    cases hd : decode w with
    | ok i => simp only [runRequest, hd] at h; exact exec_moves h
    | error why => simp only [runRequest, hd] at h; exact rejectIssue_moves h

/-- What any step can do to the engines. -/
theorem step_moves {s t : State} (h : step s = .next t) : EnginesMove s t := by
  cases hp : s.pending with
  | nil =>
    rw [step_nil hp] at h
    obtain rfl := Host.Outcome.next.inj h
    exact ⟨.keep (by simp), .keep (by simp)⟩
  | cons r rest =>
    rw [step_cons hp] at h
    exact runRequest_moves (s := { s with pending := rest }) h

end Sys2Proof.Machine
end

section
/-! The invariant between commands (rule R31): obligation O44. -/

namespace Sys2Proof.Machine

theorem reset_inv : Inv State.reset :=
  ⟨⟨[], initEngine_at md5Alg compressMd5 State.reset.md5⟩, ⟨[], initEngine_at sha1Alg compressSha1 State.reset.sha1⟩⟩

theorem step_keeps_inv {s t : State} (hinv : Inv s) (h : step s = .next t) : Inv t := by
  obtain ⟨hmd5, hsha1⟩ := hinv
  obtain ⟨mmd5, msha1⟩ := step_moves h
  exact ⟨mmd5.exists_at md5Alg_lawful lenFieldMd5_length hmd5, msha1.exists_at sha1Alg_lawful lenFieldSha1_length hsha1⟩

/-- Settles O44: one step makes one of four moves of each engine, and each move leads from a message to a message. -/
theorem stepKeepsTheInvariant : Obligations.StepKeepsTheInvariant := by
  unfold Obligations.StepKeepsTheInvariant
  refine ⟨reset_inv, fun s t => step_keeps_inv, fun s hinv => ?_⟩
  obtain ⟨⟨m, hm⟩, ⟨n, hn⟩⟩ := hinv
  rw [Md5At_iff] at hm
  rw [Sha1At_iff] at hn
  refine ⟨hm.bufLen_le, hn.bufLen_le, hm.of_not_fin, hn.of_not_fin, fun hfin => ?_, fun hfin => ?_, hm.len_le, hn.len_le⟩
  · obtain ⟨hbuf, hlen, hh⟩ := hm.of_fin hfin
    exact ⟨hbuf, m, hlen, congrArg digestMd5 hh⟩
  · obtain ⟨hbuf, hlen, hh⟩ := hn.of_fin hfin
    exact ⟨hbuf, n, hlen, congrArg digestSha1 hh⟩

end Sys2Proof.Machine
end

section
/-! SUPPORT. The byte order of words: arithmetic and inverses of le32 and be32 (rules R39, R40). Big-endian is little-endian
of the reversed bytes, so each fact is proved for little-endian and carried over. -/

namespace Sys2Proof.Machine

/-- Concatenation is arithmetic: the high part is shifted up by the width of the low part. -/
theorem append_toNat {m n : Nat} (hi : BitVec m) (lo : BitVec n) :
    (hi ++ lo).toNat = 2 ^ n * hi.toNat + lo.toNat := by
  rw [BitVec.toNat_append, ← Nat.shiftLeft_add_eq_or_of_lt lo.isLt, Nat.shiftLeft_eq, Nat.mul_comm]

theorem le32_quad (b0 b1 b2 b3 : Byte) : le32 [b0, b1, b2, b3] = b3 ++ (b2 ++ (b1 ++ b0)) := rfl

theorem be32_eq_le32 (b0 b1 b2 b3 : Byte) : be32 [b0, b1, b2, b3] = le32 [b3, b2, b1, b0] := rfl

theorem be32bytes_eq_reverse (w : Word) : be32bytes w = (le32bytes w).reverse := rfl

theorem le32_toNat (b0 b1 b2 b3 : Byte) :
    (le32 [b0, b1, b2, b3]).toNat = b0.toNat + 256 * b1.toNat + 65536 * b2.toNat + 16777216 * b3.toNat := by
  rw [le32_quad, append_toNat, append_toNat, append_toNat]
  omega

theorem be32_toNat (b0 b1 b2 b3 : Byte) :
    (be32 [b0, b1, b2, b3]).toNat = 16777216 * b0.toNat + 65536 * b1.toNat + 256 * b2.toNat + b3.toNat := by
  rw [be32_eq_le32, le32_toNat]
  omega

/-- The slice at `8i` falls inside the low part until it is that part's own high byte. -/
theorem le32bytes_le32 (b0 b1 b2 b3 : Byte) : le32bytes (le32 [b0, b1, b2, b3]) = [b0, b1, b2, b3] := by
  have h0 : (b3 ++ (b2 ++ (b1 ++ b0))).extractLsb' 0 8 = b0 := by
    rw [BitVec.extractLsb'_append_eq_of_add_le (by decide), BitVec.extractLsb'_append_eq_of_add_le (by decide),
      BitVec.extractLsb'_append_eq_right]
  have h1 : (b3 ++ (b2 ++ (b1 ++ b0))).extractLsb' 8 8 = b1 := by
    rw [BitVec.extractLsb'_append_eq_of_add_le (by decide), BitVec.extractLsb'_append_eq_of_add_le (by decide),
      BitVec.extractLsb'_append_eq_left]
  have h2 : (b3 ++ (b2 ++ (b1 ++ b0))).extractLsb' 16 8 = b2 := by
    rw [BitVec.extractLsb'_append_eq_of_add_le (by decide)]
    exact BitVec.extractLsb'_append_eq_left
  have h3 : (b3 ++ (b2 ++ (b1 ++ b0))).extractLsb' 24 8 = b3 := BitVec.extractLsb'_append_eq_left
  rw [le32bytes, le32_quad, h0, h1, h2, h3]

theorem be32bytes_be32 (b0 b1 b2 b3 : Byte) : be32bytes (be32 [b0, b1, b2, b3]) = [b0, b1, b2, b3] := by
  rw [be32_eq_le32, be32bytes_eq_reverse, le32bytes_le32]
  rfl

/-- Adjacent bit slices of a word join up to the whole word. -/
theorem le32_le32bytes (w : Word) : le32 (le32bytes w) = w := by
  have h16 : w.extractLsb' 8 8 ++ w.extractLsb' 0 8 = w.extractLsb' 0 16 :=
    BitVec.extractLsb'_append_extractLsb'_eq_extractLsb' rfl
  have h24 : w.extractLsb' 16 8 ++ w.extractLsb' 0 16 = w.extractLsb' 0 24 :=
    BitVec.extractLsb'_append_extractLsb'_eq_extractLsb' rfl
  have h32 : w.extractLsb' 24 8 ++ w.extractLsb' 0 24 = w.extractLsb' 0 32 :=
    BitVec.extractLsb'_append_extractLsb'_eq_extractLsb' rfl
  rw [le32bytes, le32_quad, h16, h24, h32, BitVec.extractLsb'_eq_self]

theorem be32_be32bytes (w : Word) : be32 (be32bytes w) = w := by
  rw [be32bytes, be32_eq_le32]
  exact le32_le32bytes w

/-- Settles O15: little-endian by the arithmetic of concatenation and its bit slices, big-endian by reversing the bytes. -/
theorem wordByteOrder : Obligations.WordByteOrder := by
  unfold Obligations.WordByteOrder
  refine ⟨fun b0 b1 b2 b3 => ?_, fun w => ?_, by decide, by decide⟩
  · exact ⟨le32_toNat b0 b1 b2 b3, be32_toNat b0 b1 b2 b3, le32bytes_le32 b0 b1 b2 b3, be32bytes_be32 b0 b1 b2 b3⟩
  · exact ⟨rfl, rfl, le32_le32bytes w, be32_be32bytes w⟩

end Sys2Proof.Machine
end

section
/-! SUPPORT. The block words of both engines (rules R42, R107, R127) and the recurrence of the SHA-1 schedule (rule R128).
-/

namespace Sys2Proof.Machine

/-- A read of four bytes inside a space, byte by byte. -/
theorem memRead_four {size : Nat} (space : Vector Byte size) (addr : Nat) (h : addr + 4 ≤ size) :
    memRead space addr 4 = [space[addr], space[addr + 1], space[addr + 2], space[addr + 3]] := by
  refine List.ext_getElem (memRead_length space addr 4 h) fun i h₁ h₂ => ?_
  rw [memRead_getElem space addr 4 i h₂ h]
  match i, h₂ with
  | 0, _ => rfl
  | 1, _ => rfl
  | 2, _ => rfl
  | 3, _ => rfl

theorem loadLe_get (blk : Block) (k : Fin 16) :
    (loadLe blk).get k =
      le32 [blk[4 * k.val], blk[4 * k.val + 1], blk[4 * k.val + 2], blk[4 * k.val + 3]] := by
  rw [← memRead_four blk (4 * k.val) (by omega)]
  simp [loadLe, Vector.get_eq_getElem]

theorem loadBe_get (blk : Block) (k : Fin 16) :
    (loadBe blk).get k =
      be32 [blk[4 * k.val], blk[4 * k.val + 1], blk[4 * k.val + 2], blk[4 * k.val + 3]] := by
  rw [← memRead_four blk (4 * k.val) (by omega)]
  simp [loadBe, Vector.get_eq_getElem]

/-- Schedule word `i` as rule R128 computes it from the words before it. -/
def schedRecurrence (ws : List Word) (i : Nat) : Word :=
  rotl32 (ws.getD (i - 3) 0 ^^^ ws.getD (i - 8) 0 ^^^ ws.getD (i - 14) 0 ^^^ ws.getD (i - 16) 0) 1

theorem sha1Schedule_zero (blk : Block) : sha1Schedule blk 0 = (loadBe blk).toList := rfl

theorem sha1Schedule_succ (blk : Block) (n : Nat) :
    sha1Schedule blk (n + 1) = sha1Schedule blk n ++ [schedRecurrence (sha1Schedule blk n) (16 + n)] := by
  rw [schedRecurrence, show 16 + n - 3 = 13 + n by omega, show 16 + n - 8 = 8 + n by omega,
    show 16 + n - 14 = 2 + n by omega, show 16 + n - 16 = n by omega]
  rfl

/-- The recurrence reads earlier words only, so words put behind them do not matter. -/
theorem schedRecurrence_append (ws vs : List Word) (i : Nat) (h16 : 16 ≤ i) (hi : i ≤ ws.length) :
    schedRecurrence (ws ++ vs) i = schedRecurrence ws i := by
  simp only [schedRecurrence]
  rw [List.getD_append _ _ _ _ (by omega), List.getD_append _ _ _ _ (by omega), List.getD_append _ _ _ _ (by omega),
    List.getD_append _ _ _ _ (by omega)]

/-- The first sixteen schedule words are the block words (rule R127). -/
theorem sha1Schedule_getElem?_block (blk : Block) (n : Nat) (k : Fin 16) :
    (sha1Schedule blk n)[k.val]? = some ((loadBe blk).get k) := by
  induction n with
  | zero => simp [sha1Schedule_zero, Vector.get_eq_getElem]
  | succ n ih =>
    have hlen := sha1Schedule_length blk n
    rw [sha1Schedule_succ, List.getElem?_append_left (by omega), ih]

/-- Every later schedule word satisfies the recurrence, read off the finished schedule (rule R128). -/
theorem sha1Schedule_getElem?_recurrence (blk : Block) (n i : Nat) (h16 : 16 ≤ i) (hi : i < 16 + n) :
    (sha1Schedule blk n)[i]? = some (schedRecurrence (sha1Schedule blk n) i) := by
  induction n with
  | zero => omega
  | succ n ih =>
    have hlen := sha1Schedule_length blk n
    rw [sha1Schedule_succ, schedRecurrence_append _ _ _ h16 (by omega)]
    by_cases hlast : i = 16 + n
    · subst hlast
      rw [List.getElem?_append_right (by omega), hlen, Nat.sub_self, List.getElem?_cons_zero]
    · rw [List.getElem?_append_left (by omega), ih (by omega)]

theorem loadBe_zero : loadBe (Vector.replicate 64 0) = Vector.replicate 16 0 := by decide

/-- The recurrence keeps zeros zero. -/
theorem schedRecurrence_zero (n i : Nat) : schedRecurrence (List.replicate n 0) i = 0 := by
  simp only [schedRecurrence, List.getD_eq_getElem?_getD, List.getElem?_getD_replicate_default_eq]
  rfl

theorem sha1Schedule_zeroBlock (n : Nat) : sha1Schedule (Vector.replicate 64 0) n = List.replicate (16 + n) 0 := by
  induction n with
  | zero => rw [sha1Schedule_zero, loadBe_zero, Vector.toList_replicate]
  | succ n ih => rw [sha1Schedule_succ, ih, schedRecurrence_zero, ← List.replicate_succ', Nat.add_assoc]

/-- Settles O26: the loads read four bytes at `4k`, and the schedule in place is the growing list of rule R128. -/
theorem blockWordsAndSchedule : Obligations.BlockWordsAndSchedule := by
  unfold Obligations.BlockWordsAndSchedule
  refine ⟨fun blk w k => loadLe_get blk k, fun blk w => ?_⟩
  rw [sha1Load_schedule]
  refine ⟨fun k => ?_, fun i h16 hi => sha1Schedule_getElem?_recurrence blk 64 i h16 hi, fun hblk => ?_⟩
  · rw [sha1Schedule_getElem?_block, loadBe_get]
  · rw [hblk, sha1Schedule_zeroBlock]

end Sys2Proof.Machine
end

section
/-! SUPPORT. The 8-byte length fields (rules R41, R64, R99, R100). -/

namespace Sys2Proof.Machine

theorem le64bytes_getElem? (v : BitVec 64) (i : Nat) (hi : i < 8) :
    (le64bytes v)[i]? = some (v.extractLsb' (8 * i) 8) := by
  rw [le64bytes, List.getElem?_map, List.getElem?_range hi, Option.map_some]

theorem be64bytes_getElem? (v : BitVec 64) (i : Nat) (hi : i < 8) :
    (be64bytes v)[i]? = some (v.extractLsb' (56 - 8 * i) 8) := by
  rw [be64bytes, List.getElem?_map, List.getElem?_range hi, Option.map_some]

theorem bitlen_toNat (len : BitVec 64) : (bitlen len).toNat = (8 * len.toNat) % 2 ^ 64 := by
  rw [bitlen, BitVec.toNat_ofNat]

/-- Up to MAX_MSG the bit length does not wrap (rule R101, decision D7). -/
theorem bitlen_toNat_of_le_maxMsg (len : BitVec 64) (h : len.toNat ≤ maxMsg) : (bitlen len).toNat = 8 * len.toNat := by
  unfold maxMsg at h
  rw [bitlen_toNat, Nat.mod_eq_of_lt (by omega)]

/-- Settles O16: each byte is one bit slice of the 64-bit value, and 8 * MAX_MSG is below 2^64. -/
theorem lengthFieldBytes : Obligations.LengthFieldBytes := by
  unfold Obligations.LengthFieldBytes
  refine ⟨fun v => ⟨by simp [le64bytes], by simp [be64bytes], fun i hi => ?_⟩, fun len => ?_, ?_⟩
  · exact ⟨le64bytes_getElem? v i hi, be64bytes_getElem? v i hi⟩
  · exact ⟨bitlen_toNat len, bitlen_toNat_of_le_maxMsg len, rfl, rfl⟩
  · decide

end Sys2Proof.Machine
end

section
/-! The layout of the padded tail (rules R63, R97, R98): each region is read off the list of its first PADLEN bytes. -/

namespace Sys2Proof.Machine

/-- Tail, marker, zero bytes and length field, one after the other (rule R98). -/
def padLayout (lenField : BitVec 64 → List Byte) (buf : List Byte) (len : BitVec 64) : List Byte :=
  buf ++ [0x80] ++ List.replicate (padLen buf.length - 9 - buf.length) 0 ++ lenField len

/-- Tail, marker and length field fit in PADLEN bytes (rule R97). -/
theorem padLen_ge {r : Nat} (hr : r ≤ 63) : r + 9 ≤ padLen r := by
  unfold padLen
  split <;> omega

section
variable {field : BitVec 64 → List Byte} {buf : List Byte} {len : BitVec 64} {pad : PadSpace}

theorem padTail_getElem? (hbuf : buf.length ≤ 63) (hlf : (field len).length = 8) {o : Nat} (ho : o < padLen buf.length) :
    (padTail field buf len pad).toList[o]? = (padLayout field buf len)[o]? := by
  rw [padLayout, ← padTail_take field buf len pad hbuf hlf, List.getElem?_take_of_lt ho]

theorem padLayout_tail {i : Nat} (hi : i < buf.length) : (padLayout field buf len)[i]? = buf[i]? := by
  simp only [padLayout, List.append_assoc]
  exact List.getElem?_append_left hi

theorem padLayout_marker : (padLayout field buf len)[buf.length]? = some 0x80 := by
  simp [padLayout]

theorem padLayout_zeros {o : Nat} (hlo : buf.length < o) (hhi : o < padLen buf.length - 8) :
    (padLayout field buf len)[o]? = some 0 := by
  rw [padLayout, List.getElem?_append_left (by simp; omega), List.getElem?_append_right (by simp; omega)]
  exact List.getElem?_replicate_of_lt (by simp; omega)

theorem padLayout_field (hbuf : buf.length ≤ 63) (i : Nat) :
    (padLayout field buf len)[padLen buf.length - 8 + i]? = (field len)[i]? := by
  have hge := padLen_ge hbuf
  rw [padLayout, List.getElem?_append_right (by simp; omega)]
  congr 1
  simp
  omega

end

/-- Settles O27: the first PADLEN bytes of the padded tail are tail, marker, zeros and length field, read region by
region. -/
theorem paddedTailLayout : Obligations.PaddedTailLayout := by
  unfold Obligations.PaddedTailLayout
  intro buf len pad field hfield hbuf
  have hlf : (field len).length = 8 := by
    rcases hfield with rfl | rfl
    · exact lenFieldMd5_length len
    · exact lenFieldSha1_length len
  have hge := padLen_ge hbuf
  refine ⟨fun h => if_pos h, fun h => if_neg (by omega), fun i hi => ?_, ?_, fun o hlo hhi => ?_, fun i hi => ?_, ?_⟩
  · rw [padTail_getElem? hbuf hlf (by omega), padLayout_tail hi]
  · rw [padTail_getElem? hbuf hlf (by omega), padLayout_marker]
  · rw [padTail_getElem? hbuf hlf (by omega), padLayout_zeros hlo hhi]
  · rw [padTail_getElem? hbuf hlf (by omega), padLayout_field hbuf]
  · refine ⟨?_, ?_, ?_, ?_⟩ <;> intro h <;> rw [h] <;> rfl

end Sys2Proof.Machine
end

section
/-! SUPPORT. What the decoder makes of a command word, by its fields (rules R55 to R59), and what becomes of a word it
rejects (rule R171). -/

namespace Sys2Proof.Machine

/-- The commands answered with data when they succeed: DIGEST and HEX (rules R148, R149, R152, R153). -/
def answersDigest : Instr → Bool
  | .md5Digest | .md5Hex | .sha1Digest | .sha1Hex => true
  | _ => false

theorem decodeMd5Op_of_lt {op : BitVec 3} (p : Payload) (h : op.toNat < 4) :
    ∃ i, decodeMd5Op op p = .ok i ∧ isCommand i = true ∧ (op.toNat = 1 → answersDigest i = false) := by
  unfold decodeMd5Op
  match op.toNat, h with
  | 0, _ => exact ⟨_, rfl, rfl, fun _ => rfl⟩
  | 1, _ => exact ⟨_, rfl, rfl, fun _ => rfl⟩
  | 2, _ => exact ⟨_, rfl, rfl, nofun⟩
  | 3, _ => exact ⟨_, rfl, rfl, nofun⟩

theorem decodeSha1Op_of_lt {op : BitVec 3} (p : Payload) (h : op.toNat < 4) :
    ∃ i, decodeSha1Op op p = .ok i ∧ isCommand i = true ∧ (op.toNat = 1 → answersDigest i = false) := by
  unfold decodeSha1Op
  match op.toNat, h with
  | 0, _ => exact ⟨_, rfl, rfl, fun _ => rfl⟩
  | 1, _ => exact ⟨_, rfl, rfl, fun _ => rfl⟩
  | 2, _ => exact ⟨_, rfl, rfl, nofun⟩
  | 3, _ => exact ⟨_, rfl, rfl, nofun⟩

theorem decodeMd5Op_of_ge {op : BitVec 3} (p : Payload) (h : 4 ≤ op.toNat) :
    decodeMd5Op op p = .error .reservedOp := by
  unfold decodeMd5Op
  match op.toNat, h with
  | _ + 4, _ => rfl

theorem decodeSha1Op_of_ge {op : BitVec 3} (p : Payload) (h : 4 ≤ op.toNat) :
    decodeSha1Op op p = .error .reservedOp := by
  unfold decodeSha1Op
  match op.toNat, h with
  | _ + 4, _ => rfl

/-- A reserved command word: `rsv` is not 0000, or `op` is one of 100 to 111 (rule R59). -/
def ReservedWord (cmd : BitVec 8) : Prop := cmdReserved cmd ≠ 0 ∨ 4 ≤ (cmdOp cmd).toNat

/-- A word that is not reserved is a command, and with `op = 1` one that answers without data (rule R56). -/
theorem decode_of_not_reserved {cmd : BitVec 8} (p : Payload) (h : ¬ ReservedWord cmd) :
    ∃ i, decode (.command cmd p) = .ok i ∧ isCommand i = true ∧ ((cmdOp cmd).toNat = 1 → answersDigest i = false) := by
  obtain ⟨hrsv, hop⟩ := not_or.mp h
  rw [decode, decodeCommand, if_neg hrsv]
  split
  · exact decodeSha1Op_of_lt p (Nat.lt_of_not_le hop)
  · exact decodeMd5Op_of_lt p (Nat.lt_of_not_le hop)

/-- A reserved word is rejected, whatever its payload (rule R59). -/
theorem decode_of_reserved {cmd : BitVec 8} (p : Payload) (h : ReservedWord cmd) :
    ∃ why, decode (.command cmd p) = .error why ∧ why ≠ .noSuchStep := by
  rw [decode, decodeCommand]
  split
  · exact ⟨.reservedBits, rfl, nofun⟩
  · next hrsv =>
    have hop : 4 ≤ (cmdOp cmd).toNat := h.resolve_left hrsv
    rw [decodeSha1Op_of_ge p hop, decodeMd5Op_of_ge p hop, ite_self]
    exact ⟨.reservedOp, rfl, nofun⟩

theorem rejectIssue_of_ne {why : Reject} (s : State) (h : why ≠ .noSuchStep) :
    rejectIssue why s = .next (raiseError .illegalCommand s) := by
  cases why with
  | reservedBits => rfl
  | reservedOp => rfl
  | noSuchStep => exact absurd rfl h

theorem runRequest_issue_ok {w : Issue} {i : Instr} (s : State) (h : decode w = .ok i) :
    runRequest (.issue w) s = exec i s := by
  simp only [runRequest, h]

theorem runRequest_issue_error {w : Issue} {why : Reject} (s : State) (h : decode w = .error why) :
    runRequest (.issue w) s = rejectIssue why s := by
  simp only [runRequest, h]

/-- A reserved word raises IllegalCommand (rules R59, R171). -/
theorem runRequest_of_reserved {cmd : BitVec 8} (p : Payload) (s : State) (h : ReservedWord cmd) :
    runRequest (.issue (.command cmd p)) s = .next (raiseError .illegalCommand s) := by
  obtain ⟨why, hwhy, hne⟩ := decode_of_reserved p h
  rw [runRequest_issue_error s hwhy, rejectIssue_of_ne s hne]

/-- Settles O2: the decoder rejects exactly the reserved words, and a rejected command word raises IllegalCommand. -/
theorem reservedCommandWordsAnswerIllegalCommand : Obligations.ReservedCommandWordsAnswerIllegalCommand := by
  unfold Obligations.ReservedCommandWordsAnswerIllegalCommand
  refine ⟨fun s rest cmd p hpend hres => ?_, by decide +kernel, fun cmd p hlegal => ?_⟩
  · rw [step_cons hpend, runRequest_of_reserved p _ hres]
    rfl
  · obtain ⟨i, hi, -, -⟩ := decode_of_not_reserved p hlegal
    exact ⟨i, hi⟩

end Sys2Proof.Machine
end

section
/-! One response a command (rule R60). -/

namespace Sys2Proof.Machine

/-- `t` has one response more than `s`, with a status of 0 to 3, and no data where the status is not OK or where the
command is `quiet`, one that never answers data (rules R60, R61). -/
def AnsweredOnce (quiet : Prop) (s t : State) : Prop :=
  ∃ r, t.responses = s.responses ++ [r] ∧ r.status.toNat ≤ 3 ∧ (r.status ≠ 0 → r.data = []) ∧ (quiet → r.data = [])

/-- An error is answered once, without data (rules R167, R168). -/
theorem raiseError_answeredOnce (quiet : Prop) (k : ErrorKind) (s : State) : AnsweredOnce quiet s (raiseError k s) :=
  ⟨_, raiseError_responses k s, by cases k <;> decide, fun _ => rfl, fun _ => rfl⟩

section
variable {η ω : Type} {A : Alg η ω} {put : Engine η ω → State → State} {quiet : Prop} {e : Engine η ω} {s t : State}

/-- The end of a command that ran is one OK response (rule R60), for an engine stored back without one. -/
theorem complete_answeredOnce {d : List Byte} (hput : ∀ e s, (put e s).responses = s.responses) (hd : quiet → d = []) :
    AnsweredOnce quiet s (complete A put d e s) := by
  refine ⟨⟨statusOk, d⟩, ?_, Nat.zero_le 3, fun hne => absurd rfl hne, hd⟩
  rw [complete, respond_responses, hput]

/-- UPDATE is answered once and never with data (rules R147, R151). -/
theorem updateWith_answeredOnce {payload : Payload} (hput : ∀ e s, (put e s).responses = s.responses)
    (h : updateWith A put payload e s = .next t) : AnsweredOnce quiet s t := by
  obtain ⟨k, -, rfl⟩ | ⟨data, -, -, -, rfl⟩ := updateWith_next h
  · exact raiseError_answeredOnce quiet k s
  · exact complete_answeredOnce hput fun _ => rfl

end

/-- Every command that runs is answered once, and only DIGEST and HEX answer data. -/
theorem exec_answeredOnce {i : Instr} {s t : State} (hi : isCommand i = true) (h : exec i s = .next t) :
    AnsweredOnce (answersDigest i = false) s t := by
  cases i with
  | md5Init => obtain rfl := Host.Outcome.next.inj h; exact complete_answeredOnce setMd5_responses fun _ => rfl
  | md5Update payload => exact updateWith_answeredOnce setMd5_responses h
  | md5Digest => obtain rfl := Host.Outcome.next.inj h; exact complete_answeredOnce setMd5_responses nofun
  | md5Hex => obtain rfl := Host.Outcome.next.inj h; exact complete_answeredOnce setMd5_responses nofun
  | sha1Init => obtain rfl := Host.Outcome.next.inj h; exact complete_answeredOnce setSha1_responses fun _ => rfl
  | sha1Update payload => exact updateWith_answeredOnce setSha1_responses h
  | sha1Digest => obtain rfl := Host.Outcome.next.inj h; exact complete_answeredOnce setSha1_responses nofun
  | sha1Hex => obtain rfl := Host.Outcome.next.inj h; exact complete_answeredOnce setSha1_responses nofun
  | md5StepF j | md5StepG j | md5StepH j | md5StepI j => cases hi
  | sha1StepP1 j | sha1StepP2 j | sha1StepP3 j | sha1StepP4 j => cases hi

/-- A command word that gives a next state is answered once, and with `op = 1`, UPDATE, without data. -/
theorem runRequest_command_answeredOnce {cmd : BitVec 8} {p : Payload} {s t : State}
    (h : runRequest (.issue (.command cmd p)) s = .next t) : AnsweredOnce ((cmdOp cmd).toNat = 1) s t := by
  by_cases hres : ReservedWord cmd
  · rw [runRequest_of_reserved p s hres] at h
    obtain rfl := Host.Outcome.next.inj h
    exact raiseError_answeredOnce _ _ s
  · obtain ⟨i, hdec, hcmd, hquiet⟩ := decode_of_not_reserved p hres
    rw [runRequest_issue_ok s hdec] at h
    obtain ⟨r, hr, hstatus, herr, hdata⟩ := exec_answeredOnce hcmd h
    exact ⟨r, hr, hstatus, herr, fun hop => hdata (hquiet hop)⟩

/-- Settles O51: a reserved word raises one error, and every legal word runs a command that is answered once. -/
theorem everyCommandGivesOneResponse : Obligations.EveryCommandGivesOneResponse := by
  unfold Obligations.EveryCommandGivesOneResponse
  intro s t cmd p rest hpend hstep
  rw [step_cons hpend] at hstep
  obtain ⟨r, hr, hstatus, herr, hquiet⟩ := runRequest_command_answeredOnce hstep
  exact ⟨r, hr, hstatus, herr, fun hop => hquiet (congrArg BitVec.toNat hop)⟩

end Sys2Proof.Machine
end

section
/-! The step kinds that the two step indexes select (rules R67, R68). -/

namespace Sys2Proof.Machine

/-- `j[5:4] = floor(j / 16)` (rule R67). -/
theorem md5Index_high (j : BitVec 6) : (j.extractLsb' 4 2).toNat = j.toNat / 16 := by
  rw [BitVec.extractLsb'_toNat, Nat.shiftRight_eq_div_pow]
  omega

/-- `j[1:0] = j mod 4` (rule R67). -/
theorem md5Index_low (j : BitVec 6) : (j.extractLsb' 0 2).toNat = j.toNat % 4 := by
  rw [BitVec.extractLsb'_toNat, Nat.shiftRight_zero]

theorem decodeMd5Step_F {j : BitVec 6} (h : j.toNat / 16 = 0) : decodeMd5Step j = .ok (.md5StepF j) := by
  simp only [decodeMd5Step, md5Index_high, h]

theorem decodeMd5Step_G {j : BitVec 6} (h : j.toNat / 16 = 1) : decodeMd5Step j = .ok (.md5StepG j) := by
  simp only [decodeMd5Step, md5Index_high, h]

theorem decodeMd5Step_H {j : BitVec 6} (h : j.toNat / 16 = 2) : decodeMd5Step j = .ok (.md5StepH j) := by
  simp only [decodeMd5Step, md5Index_high, h]

theorem decodeMd5Step_I {j : BitVec 6} (h : j.toNat / 16 = 3) : decodeMd5Step j = .ok (.md5StepI j) := by
  simp only [decodeMd5Step, md5Index_high, h]

/-- Settles O5: the decoder looks at `floor(j / 16)` only, and the rotate table is read at the two bit slices. -/
theorem md5StepKindIsSelectedByTheIndex : Obligations.Md5StepKindIsSelectedByTheIndex := by
  unfold Obligations.Md5StepKindIsSelectedByTheIndex
  intro j
  refine ⟨md5Index_high j, md5Index_low j, fun hhi => ?_, fun hlo hhi => ?_, fun hlo hhi => ?_, fun hlo => ?_, ?_⟩
  · exact decodeMd5Step_F (by omega)
  · exact decodeMd5Step_G (by omega)
  · exact decodeMd5Step_H (by omega)
  · exact decodeMd5Step_I (by omega)
  · rw [md5S, md5Index_high, md5Index_low]

theorem decodeSha1Step_P1 {t : BitVec 7} (h : t.toNat / 20 = 0) : decodeSha1Step t = .ok (.sha1StepP1 t) := by
  simp only [decodeSha1Step, h]

theorem decodeSha1Step_P2 {t : BitVec 7} (h : t.toNat / 20 = 1) : decodeSha1Step t = .ok (.sha1StepP2 t) := by
  simp only [decodeSha1Step, h]

theorem decodeSha1Step_P3 {t : BitVec 7} (h : t.toNat / 20 = 2) : decodeSha1Step t = .ok (.sha1StepP3 t) := by
  simp only [decodeSha1Step, h]

theorem decodeSha1Step_P4 {t : BitVec 7} (h : t.toNat / 20 = 3) : decodeSha1Step t = .ok (.sha1StepP4 t) := by
  simp only [decodeSha1Step, h]

/-- Settles O6: the decoder looks at `floor(t / 20)` only. -/
theorem sha1StepKindIsSelectedByTheIndex : Obligations.Sha1StepKindIsSelectedByTheIndex := by
  unfold Obligations.Sha1StepKindIsSelectedByTheIndex
  intro t
  refine ⟨fun hhi => ?_, fun hlo hhi => ?_, fun hlo hhi => ?_, fun hlo hhi => ?_⟩
  · exact decodeSha1Step_P1 (by omega)
  · exact decodeSha1Step_P2 (by omega)
  · exact decodeSha1Step_P3 (by omega)
  · exact decodeSha1Step_P4 (by omega)

end Sys2Proof.Machine
end

section
/-! The byte order of the digest (rules R119, R138). -/

namespace Sys2Proof.Machine

/-- Settles O38: the digests are defined word by word in index order, and the examples of the rules are computed. -/
theorem digestSerialisation : Obligations.DigestSerialisation := by
  unfold Obligations.DigestSerialisation
  refine ⟨fun a b c d => rfl, fun h0 h1 h2 h3 h4 => rfl, ?_, ?_⟩
  · decide
  · decide

end Sys2Proof.Machine
end

section
/-! Addition and rotation of words (rules R80, R81). -/

namespace Sys2Proof.Machine

theorem add32_toNat (x y : Word) : (add32 x y).toNat = (x.toNat + y.toNat) % 2 ^ 32 := BitVec.toNat_add x y

theorem add32_comm (x y : Word) : add32 x y = add32 y x := BitVec.add_comm x y

theorem add32_assoc (x y z : Word) : add32 (add32 x y) z = add32 x (add32 y z) := BitVec.add_assoc x y z

theorem add32_zero (x : Word) : add32 x 0 = x := BitVec.add_zero x

/-- Settles O11: `add32` is the addition of 32-bit vectors. -/
theorem add32WrapsModTwoTo32 : Obligations.Add32WrapsModTwoTo32 := by
  unfold Obligations.Add32WrapsModTwoTo32
  refine ⟨add32_toNat, add32_comm, add32_assoc, add32_zero, ?_, ?_, ?_⟩
  · decide
  · decide
  · decide

section
variable (x : Word) {n : Nat}

/-- The `32 - n` low bits of `x` move up by `n`, and the `n` high bits come in below them: the two parts share no bit
(rule R81). -/
theorem rotl32_toNat (hn : n < 32) : (rotl32 x n).toNat = (x.toNat * 2 ^ n) % 2 ^ 32 + x.toNat / 2 ^ (32 - n) := by
  have hpow : 2 ^ 32 = 2 ^ n * 2 ^ (32 - n) := by rw [← Nat.pow_add, Nat.add_sub_cancel' hn.le]
  have hlow : (x.toNat * 2 ^ n) % 2 ^ 32 = 2 ^ n * (x.toNat % 2 ^ (32 - n)) := by
    rw [hpow, Nat.mul_comm, Nat.mul_mod_mul_left]
  have hhigh : x.toNat / 2 ^ (32 - n) < 2 ^ n := by
    rw [Nat.div_lt_iff_lt_mul (Nat.two_pow_pos _), ← hpow]
    exact x.isLt
  rw [rotl32, BitVec.toNat_rotateLeft, Nat.mod_eq_of_lt hn, Nat.shiftLeft_eq, Nat.shiftRight_eq_div_pow, hlow,
    Nat.two_pow_add_eq_or_of_lt hhigh]

/-- Bit `i` of the result is bit `(i - n) mod 32` of `x` (rule R81). -/
theorem rotl32_getLsbD (hn : n < 32) {i : Nat} (hi : i < 32) :
    (rotl32 x n).getLsbD i = x.getLsbD ((i + (32 - n)) % 32) := by
  rw [rotl32, BitVec.getLsbD_rotateLeft_of_le hn]
  by_cases hin : i < n
  · have hidx : (i + (32 - n)) % 32 = 32 - n + i := by omega
    simp [hin, hidx]
  · have hidx : (i + (32 - n)) % 32 = i - n := by omega
    simp [hin, hi, hidx]

end

theorem rotl32_allOnes {n : Nat} (hn : n < 32) : rotl32 (BitVec.allOnes 32) n = BitVec.allOnes 32 := by
  refine BitVec.eq_of_getLsbD_eq fun i hi => ?_
  rw [rotl32_getLsbD _ hn hi, BitVec.getLsbD_allOnes, BitVec.getLsbD_allOnes]
  simp [hi, Nat.mod_lt]

theorem rotl32_zero {n : Nat} (hn : n < 32) : rotl32 0 n = 0 := by
  refine BitVec.eq_of_getLsbD_eq fun i hi => ?_
  rw [rotl32_getLsbD _ hn hi]
  simp

/-- Every rotate amount of MD5 is one of the sixteen entries of the rotate table (rules R81, R111). -/
theorem md5S_mem_romS (j : BitVec 6) : md5S j ∈ romS.map BitVec.toNat := by
  have hrow : 4 * (j.toNat / 16) + j.toNat % 4 < romS.length := by
    have hlen : romS.length = 16 := rfl
    omega
  rw [md5S, ← List.getElem_eq_getD (h := hrow)]
  exact List.mem_map_of_mem (List.getElem_mem hrow)

/-- Settles O12: the arithmetic form and the bit form hold for every word and amount, and MD5's amounts are those of
the rotate table. -/
theorem rotl32IsTheArithmeticRotation : Obligations.Rotl32IsTheArithmeticRotation := by
  unfold Obligations.Rotl32IsTheArithmeticRotation
  refine ⟨fun x n _ hn => ?_, ?_, ?_, ?_, fun j => ?_⟩
  · have hlt : n < 32 := Nat.lt_succ_of_le hn
    exact ⟨rotl32_toNat x hlt, fun _ hi => rotl32_getLsbD x hlt hi, rotl32_allOnes hlt, rotl32_zero hlt⟩
  · decide
  · decide
  · decide
  · have hrom : romS.map BitVec.toNat ⊆ [4, 5, 6, 7, 9, 10, 11, 12, 14, 15, 16, 17, 20, 21, 22, 23] := by decide
    exact hrom (md5S_mem_romS j)

end Sys2Proof.Machine
end

section
/-! The mixing functions, bit by bit, and their corner cases (rules R83 to R90). The word 0xFFFFFFFF is written
`BitVec.allOnes 32`, as the library's laws do. -/

namespace Sys2Proof.Machine

section
variable (x y z : Word)

theorem mixF_getLsbD {i : Nat} (hi : i < 32) :
    (mixF x y z).getLsbD i = if x.getLsbD i then y.getLsbD i else z.getLsbD i := by
  rw [mixF, BitVec.getLsbD_or, BitVec.getLsbD_and, BitVec.getLsbD_and, BitVec.getLsbD_not]
  cases x.getLsbD i with
  | false => simp [hi]
  | true => simp

/-- G is F with the selector last (rule R84). -/
theorem mixG_eq_mixF : mixG x y z = mixF z x y := by
  rw [mixG, mixF, BitVec.and_comm x z, BitVec.and_comm y (~~~z)]

theorem mixH_getLsbD (i : Nat) : (mixH x y z).getLsbD i = ((x.getLsbD i ^^ y.getLsbD i) ^^ z.getLsbD i) := by
  rw [mixH, BitVec.getLsbD_xor, BitVec.getLsbD_xor]

theorem mixI_getLsbD {i : Nat} (hi : i < 32) :
    (mixI x y z).getLsbD i = (y.getLsbD i ^^ (x.getLsbD i || !z.getLsbD i)) := by
  simp [mixI, hi]

theorem mixF_zero : mixF 0 y z = z :=
  BitVec.eq_of_getLsbD_eq fun i hi => (mixF_getLsbD 0 y z hi).trans (if_neg (by simp))

theorem mixF_allOnes : mixF (BitVec.allOnes 32) y z = y :=
  BitVec.eq_of_getLsbD_eq fun i hi => by
    rw [mixF_getLsbD _ y z hi, BitVec.getLsbD_allOnes, decide_eq_true hi, if_pos rfl]

theorem mixH_self : mixH x x z = z := by
  rw [mixH, BitVec.xor_self, BitVec.zero_xor]

/-- Where `x OR NOT z` is all ones, `I` inverts `y` (rule R86). -/
theorem mixI_of_or_allOnes (h : x ||| ~~~z = BitVec.allOnes 32) : mixI x y z = ~~~y := by
  rw [mixI, h, BitVec.xor_allOnes]

theorem mixI_zero_right : mixI x y 0 = ~~~y :=
  mixI_of_or_allOnes x y 0 BitVec.or_allOnes

theorem mixI_allOnes_left : mixI (BitVec.allOnes 32) y z = ~~~y :=
  mixI_of_or_allOnes _ y z BitVec.allOnes_or

theorem mixI_zero_allOnes : mixI 0 y (BitVec.allOnes 32) = y := by
  have hmask : (0 : Word) ||| ~~~BitVec.allOnes 32 = 0#32 := by decide
  rw [mixI, hmask, BitVec.xor_zero]

/-- f1 is F (rule R87). -/
theorem mixF1_eq_mixF : mixF1 = mixF := rfl

/-- f2 is H (rule R88). -/
theorem mixF2_eq_mixH : mixF2 = mixH := rfl

/-- f4 is f2 (rule R90). -/
theorem mixF4_eq_mixF2 : mixF4 = mixF2 := rfl

theorem mixF3_getLsbD (i : Nat) :
    (mixF3 x y z).getLsbD i =
      ((x.getLsbD i && y.getLsbD i) || (x.getLsbD i && z.getLsbD i) || (y.getLsbD i && z.getLsbD i)) := by
  simp only [mixF3, BitVec.getLsbD_or, BitVec.getLsbD_and]

/-- Two equal words are the majority (rule R89). -/
theorem mixF3_self : mixF3 x x z = x :=
  BitVec.eq_of_getLsbD_eq fun i _ => by
    rw [mixF3_getLsbD]
    cases x.getLsbD i with
    | false => rfl
    | true => rfl

theorem mixF3_zero : mixF3 0 y z = y &&& z := by
  simp [mixF3]

end

/-- Settles O13: each function's bits, and the corner cases by the laws of the word operations; G's follow from F's. -/
theorem md5MixingFunctionsBitByBit : Obligations.Md5MixingFunctionsBitByBit := by
  unfold Obligations.Md5MixingFunctionsBitByBit
  refine ⟨fun x y z i hi => ⟨mixF_getLsbD x y z hi, ?_, mixH_getLsbD x y z i, mixI_getLsbD x y z hi⟩,
    fun x y z => ⟨mixF_zero y z, mixF_allOnes y z, mixG_eq_mixF x y z, ?_, ?_, mixH_self x z, mixH_self 0 0,
      mixI_zero_right x y, mixI_zero_allOnes y, mixI_allOnes_left y z⟩, ?_, ?_, ?_, ?_⟩
  · rw [mixG_eq_mixF, mixF_getLsbD z x y hi]
  · rw [mixG_eq_mixF, mixF_zero]
  · exact (mixG_eq_mixF x y _).trans (mixF_allOnes x y)
  · decide
  · decide
  · decide
  · decide

/-- Settles O14: f1, f2 and f4 are MD5's F and H, whose bits are known, and f3 is the majority. -/
theorem sha1MixingFunctionsBitByBit : Obligations.Sha1MixingFunctionsBitByBit := by
  unfold Obligations.Sha1MixingFunctionsBitByBit
  rw [mixF4_eq_mixF2, mixF2_eq_mixH, mixF1_eq_mixF]
  refine ⟨fun b c d i hi => ⟨mixF_getLsbD b c d hi, mixH_getLsbD b c d i, mixF3_getLsbD b c d i, ?_⟩,
    fun b c d => ⟨rfl, rfl, rfl, mixF3_self b d, mixF3_zero c d⟩, ?_, ?_, ?_, ?_⟩
  · exact mixH_getLsbD b c d i
  · decide
  · decide
  · decide
  · decide

end Sys2Proof.Machine
end

section
/-! The padded tail and the padded message (rule R105): the message's complete blocks stand unchanged before the padded
tail. -/

namespace Sys2Proof.Machine

section
variable (lenField : BitVec 64 → List Byte) (m : List Byte)

/-- The complete blocks lie inside the message, so dropping them from the padded message leaves the message's tail and
the padding. -/
theorem padMessage_drop_blocks :
    (padMessage lenField m).drop (64 * (m.length / 64)) =
      tailOf m ++ [0x80] ++ List.replicate (padZeros m.length) 0 ++ lenField (BitVec.ofNat 64 m.length) := by
  simp only [padMessage, List.append_assoc]
  exact List.drop_append_of_le_length (Nat.mul_div_le m.length 64)

theorem padMessage_take_blocks :
    (padMessage lenField m).take (64 * (m.length / 64)) = m.take (64 * (m.length / 64)) := by
  simp only [padMessage, List.append_assoc]
  exact List.take_append_of_le_length (Nat.mul_div_le m.length 64)

/-- The first PADLEN bytes of a message's padded tail are the padded message after its complete blocks (rule R105). -/
theorem padTail_take_eq_padMessage_drop (pad : PadSpace) (hlf : (lenField (BitVec.ofNat 64 m.length)).length = 8) :
    (padTail lenField (tailOf m) (BitVec.ofNat 64 m.length) pad).toList.take (padLen (tailOf m).length) =
      (padMessage lenField m).drop (64 * (m.length / 64)) := by
  have hr := tailOf_length m
  rw [padTail_take _ _ _ _ (by omega) hlf, hr, padLen_mod, padMessage_drop_blocks]

end

/-- Message, marker and zeros end 8 bytes before a block boundary (rule R105). -/
theorem padZeros_fits (n : Nat) : (n + 1 + padZeros n) % 64 = 56 := by
  unfold padZeros
  omega

/-- Two numbers of zeros that fit differ by a multiple of 64, and `padZeros` is below 64. -/
theorem padZeros_le {n z : Nat} (hz : (n + 1 + z) % 64 = 56) : padZeros n ≤ z := by
  have hlt : padZeros n < 64 := Nat.mod_lt _ (by decide)
  have hfits := padZeros_fits n
  have hmod : z % 64 = padZeros n := by omega
  exact hmod ▸ Nat.mod_le z 64

/-- Settles O28: the padded message is cut after the message's complete blocks, and the number of zeros is that of the
congruence below 64. -/
theorem paddedTailIsTheEndOfThePaddedMessage : Obligations.PaddedTailIsTheEndOfThePaddedMessage := by
  unfold Obligations.PaddedTailIsTheEndOfThePaddedMessage
  intro m pad field hfield
  have hlf : (field (BitVec.ofNat 64 m.length)).length = 8 := by
    rcases hfield with rfl | rfl
    · exact lenFieldMd5_length _
    · exact lenFieldSha1_length _
  refine ⟨?_, padMessage_take_blocks field m, padZeros_fits m.length, fun z hz => padZeros_le hz⟩
  rw [memRead, List.drop_zero]
  exact padTail_take_eq_padMessage_drop field m pad hlf

end Sys2Proof.Machine
end

section
/-! A compression as a whole record update (rules R106, R121): obligation O22. -/

namespace Sys2Proof.Machine

variable {η ω : Type} {A : Alg η ω} {f : η → Block → η}

/-- A lawful compression replaces H by the compression function of H and the block, and nothing else but transients. -/
theorem Lawful.compress_eq (hA : Lawful A f) (e : Engine η ω) (b : Block) :
    A.compress e b = { e with h := f e.h b, work := (A.compress e b).work } := by
  rw [← hA.compress_h e b, ← hA.compress_buf e b, ← hA.compress_len e b, ← hA.compress_fin e b,
    ← hA.compress_fresh e b]

/-- Settles O22: the sequencer's working variables are those of the pure function after every step (`md5Run_spec`), which
makes the compression lawful. -/
theorem md5CompressionIsTheSpecifiedFunction : Obligations.Md5CompressionIsTheSpecifiedFunction := by
  unfold Obligations.Md5CompressionIsTheSpecifiedFunction
  exact fun e blk => ⟨(md5Compress e blk).work, md5Alg_lawful.compress_eq e blk⟩

end Sys2Proof.Machine
end

section
/-! SUPPORT. An engine that is fed a message (rule R155): it is at the message and not finalised. INIT and Absorb once for
both engines, and what DIGEST then answers. -/

namespace Sys2Proof.Machine

variable {η ω : Type}

/-- The engine is at message `m` and takes more of it: FIN is 0 (rules R20, R31). -/
structure Alg.OpenAt (A : Alg η ω) (f : η → Block → η) (m : List Byte) (e : Engine η ω) : Prop where
  at_message : A.At f m e
  not_fin : e.fin = false

variable {A : Alg η ω} {f : η → Block → η} {m : List Byte} {e : Engine η ω}

theorem initEngine_openAt (A : Alg η ω) (f : η → Block → η) (e : Engine η ω) : A.OpenAt f [] (initEngine A e) :=
  ⟨initEngine_at A f e, rfl⟩

/-- What fits an engine at `m` is what keeps the longer message within MAX_MSG (rule R154). -/
theorem Alg.OpenAt.fits (hopen : A.OpenAt f m e) {data : List Byte} (hmax : (m ++ data).length ≤ maxMsg) :
    e.len.toNat + data.length ≤ maxMsg := by
  obtain ⟨⟨-, hlen, -, -⟩, -⟩ := hopen
  rwa [hlen, ← List.length_append]

theorem absorb_openAt (hA : Lawful A f) (hopen : A.OpenAt f m e) {data : List Byte}
    (hmax : (m ++ data).length ≤ maxMsg) : A.OpenAt f (m ++ data) (absorb A data e) := by
  obtain ⟨-, -, -, hfin, -⟩ := absorb_spec hA data e
  exact ⟨absorb_at hA hopen.at_message hopen.not_fin (hopen.fits hmax), hfin.trans hopen.not_fin⟩

/-- The release of the transients at the end of a command keeps the engine at its message. -/
theorem Alg.OpenAt.release (hopen : A.OpenAt f m e) : A.OpenAt f m (release A e) :=
  ⟨hopen.at_message, hopen.not_fin⟩

/-- LEN, BUFLEN, the tail and H of an engine that is fed a message are functions of the message (rule R155). -/
theorem Alg.OpenAt.fields (hopen : A.OpenAt f m e) :
    e.len.toNat = m.length ∧ bufLen e = m.length % 64 ∧ e.buf = tailOf m ∧ e.h = chainOf f A.iv m := by
  obtain ⟨⟨-, hlen, hfields, -⟩, hfin⟩ := hopen
  obtain ⟨hbuf, hh⟩ := hfields hfin
  exact ⟨hlen, by rw [bufLen, hbuf, tailOf_length], hbuf, hh⟩

/-- Finalize leaves H at the words of the whole padded message (rules R103, R122, R142). -/
theorem Alg.OpenAt.finalized_h (hA : Lawful A f) (hlf : ∀ len, (A.lenField len).length = 8) (hopen : A.OpenAt f m e) :
    (finalized A e).h = chainOf f A.iv (padMessage A.lenField m) := by
  obtain ⟨hat, hfin⟩ := hopen
  have hset : (finalized A e).fin = true := by
    rw [finalized_of_not_fin hfin]
    obtain ⟨-, -, -, hset, -⟩ := finalize_spec hA e
    exact hset
  obtain ⟨-, -, -, hdone⟩ := finalized_at hA hlf hat
  exact (hdone hset).2

end Sys2Proof.Machine
end

section
/-! SUPPORT. Runs of commands as machine steps: one step a request, each answered OK; and the run of a script that feeds a
message in chunks, by induction over the chunks, for any engine. -/

namespace Sys2Proof.Machine

/-- One step carries out the instruction of the request presented first. -/
theorem step_requestOf {s : State} {i : Instr} {rest : List Request} (hdec : decode (encode i) = .ok i)
    (hpend : s.pending = requestOf i :: rest) : step s = exec i { s with pending := rest } := by
  rw [step_cons hpend, requestOf, runRequest_issue_ok _ hdec]

theorem runSteps_zero (s : State) : runSteps 0 s = .next s := rfl

theorem runSteps_succ {s t : State} (n : Nat) (h : step s = .next t) : runSteps (n + 1) s = runSteps n t := by
  have hcore : core.step s = .next t := h
  have hrun : core.run (n + 1) s = core.run n t := by simp only [Host.Core.run, hcore]
  exact hrun

/-- One step from `s` to `t` answers a request OK with `data` and leaves the requests `rest` (rules R50, R60). -/
structure StepsOk (data : List Byte) (rest : List Request) (s t : State) : Prop where
  step_eq : step s = .next t
  pending_eq : t.pending = rest
  responses_eq : t.responses = s.responses ++ [⟨statusOk, data⟩]

/-- `n` steps from `s` to `t` answer `n` requests OK without data and leave the requests `rest`. -/
structure RunsOk (n : Nat) (rest : List Request) (s t : State) : Prop where
  run_eq : runSteps n s = .next t
  pending_eq : t.pending = rest
  responses_eq : t.responses = s.responses ++ List.replicate n ⟨statusOk, []⟩

theorem RunsOk.zero (s : State) : RunsOk 0 s.pending s s := ⟨runSteps_zero s, rfl, (List.append_nil _).symm⟩

theorem RunsOk.succ {n : Nat} {mid rest : List Request} {s t u : State} (hstep : StepsOk [] mid s t)
    (hrun : RunsOk n rest t u) : RunsOk (n + 1) rest s u := by
  refine ⟨(runSteps_succ n hstep.step_eq).trans hrun.run_eq, hrun.pending_eq, ?_⟩
  rw [hrun.responses_eq, hstep.responses_eq, List.append_assoc, List.singleton_append, ← List.replicate_succ]

/-- The request `update c` moves a state where `P` holds of a message `m` to one where it holds of `m` and then `c`, as
long as that is within MAX_MSG. -/
def UpdateExtends (P : List Byte → State → Prop) (update : List Byte → Request) : Prop :=
  ∀ m c s rest, P m s → (m ++ c).length ≤ maxMsg → s.pending = update c :: rest →
    ∃ t, StepsOk [] rest s t ∧ P (m ++ c) t

/-- Updates with chunks one after another extend the message by the chunks joined up, so the split does not matter (rule
R155). -/
theorem UpdateExtends.run {P : List Byte → State → Prop} {update : List Byte → Request} (hup : UpdateExtends P update)
    (chunks : List (List Byte)) {m : List Byte} {s : State} {rest : List Request} (hP : P m s)
    (hmax : (m ++ chunks.flatten).length ≤ maxMsg) (hpend : s.pending = chunks.map update ++ rest) :
    ∃ t, RunsOk chunks.length rest s t ∧ P (m ++ chunks.flatten) t := by
  induction chunks generalizing m s with
  | nil =>
    obtain rfl : s.pending = rest := hpend
    exact ⟨s, RunsOk.zero s, by simpa using hP⟩
  | cons c cs ih =>
    rw [List.flatten_cons, ← List.append_assoc] at hmax ⊢
    have hc : (m ++ c).length ≤ maxMsg := by
      rw [List.length_append] at hmax
      omega
    obtain ⟨t, hstep, ht⟩ := hup m c s _ hP hc hpend
    obtain ⟨u, hrun, hu⟩ := ih ht hmax hstep.pending_eq
    exact ⟨u, hrun.succ hstep, hu⟩

/-- INIT and then the updates leave the state where `P` holds of the whole message. -/
theorem UpdateExtends.run_from_init {P : List Byte → State → Prop} {update : List Byte → Request}
    (hup : UpdateExtends P update) {chunks : List (List Byte)} {s t : State} {rest : List Request}
    (hinit : StepsOk [] (chunks.map update ++ rest) s t) (hP : P [] t) (hmax : chunks.flatten.length ≤ maxMsg) :
    ∃ u, RunsOk (chunks.length + 1) rest s u ∧ P chunks.flatten u := by
  obtain ⟨u, hrun, hu⟩ := hup.run chunks hP hmax hinit.pending_eq
  exact ⟨u, hrun.succ hinit, hu⟩

end Sys2Proof.Machine
end

section
/-! Streaming equivalence (rules R122, R142, R155): obligation O42. Each engine's commands as machine steps, then the run of
the whole script. -/

namespace Sys2Proof.Machine

variable {s : State} {m : List Byte} {rest : List Request}

/-- The MD5 engine is fed the message `m` while the SHA-1 engine stays `other`. -/
def Md5Fed (other : Engine Sha1H Sha1Work) (m : List Byte) (s : State) : Prop :=
  md5Alg.OpenAt compressMd5 m s.md5 ∧ s.sha1 = other

/-- The SHA-1 engine is fed the message `m` while the MD5 engine stays `other`. -/
def Sha1Fed (other : Engine Md5H Md5Work) (m : List Byte) (s : State) : Prop :=
  sha1Alg.OpenAt compressSha1 m s.sha1 ∧ s.md5 = other

/-- A command that ends by storing the MD5 engine is one step. -/
theorem stepsOk_of_md5 {i : Instr} {d : List Byte} {e : Engine Md5H Md5Work} (hdec : decode (encode i) = .ok i)
    (hpend : s.pending = requestOf i :: rest)
    (hexec : exec i { s with pending := rest } = .next (complete md5Alg setMd5 d e { s with pending := rest })) :
    StepsOk d rest s (complete md5Alg setMd5 d e { s with pending := rest }) :=
  ⟨(step_requestOf hdec hpend).trans hexec, rfl, rfl⟩

/-- A command that ends by storing the SHA-1 engine is one step. -/
theorem stepsOk_of_sha1 {i : Instr} {d : List Byte} {e : Engine Sha1H Sha1Work} (hdec : decode (encode i) = .ok i)
    (hpend : s.pending = requestOf i :: rest)
    (hexec : exec i { s with pending := rest } = .next (complete sha1Alg setSha1 d e { s with pending := rest })) :
    StepsOk d rest s (complete sha1Alg setSha1 d e { s with pending := rest }) :=
  ⟨(step_requestOf hdec hpend).trans hexec, rfl, rfl⟩

theorem md5Init_fed (hpend : s.pending = requestOf .md5Init :: rest) :
    ∃ t, StepsOk [] rest s t ∧ Md5Fed s.sha1 [] t :=
  ⟨_, stepsOk_of_md5 rfl hpend rfl, (initEngine_openAt md5Alg compressMd5 s.md5).release, rfl⟩

theorem sha1Init_fed (hpend : s.pending = requestOf .sha1Init :: rest) :
    ∃ t, StepsOk [] rest s t ∧ Sha1Fed s.md5 [] t :=
  ⟨_, stepsOk_of_sha1 rfl hpend rfl, (initEngine_openAt sha1Alg compressSha1 s.sha1).release, rfl⟩

theorem md5Update_extends (other : Engine Sha1H Sha1Work) :
    UpdateExtends (Md5Fed other) fun c => requestOf (.md5Update (.bytes c)) := by
  rintro m c s rest ⟨hopen, hother⟩ hmax hpend
  have hexec := updateWith_ok md5Alg setMd5 c s.md5 { s with pending := rest } hopen.not_fin (hopen.fits hmax)
  exact ⟨_, stepsOk_of_md5 rfl hpend hexec, (absorb_openAt md5Alg_lawful hopen hmax).release, hother⟩

theorem sha1Update_extends (other : Engine Md5H Md5Work) :
    UpdateExtends (Sha1Fed other) fun c => requestOf (.sha1Update (.bytes c)) := by
  rintro m c s rest ⟨hopen, hother⟩ hmax hpend
  have hexec := updateWith_ok sha1Alg setSha1 c s.sha1 { s with pending := rest } hopen.not_fin (hopen.fits hmax)
  exact ⟨_, stepsOk_of_sha1 rfl hpend hexec, (absorb_openAt sha1Alg_lawful hopen hmax).release, hother⟩

/-- DIGEST answers the digest of the message fed, `MD5(M)` (rules R122, R148). -/
theorem md5Digest_answers (hopen : md5Alg.OpenAt compressMd5 m s.md5) (hpend : s.pending = requestOf .md5Digest :: rest) :
    ∃ t, StepsOk (md5Message m) rest s t := by
  have hdigest : digestMd5 (finalized md5Alg s.md5).h = md5Message m :=
    congrArg digestMd5 (hopen.finalized_h md5Alg_lawful lenFieldMd5_length)
  have hstep : StepsOk (digestMd5 (finalized md5Alg s.md5).h) rest s _ := stepsOk_of_md5 rfl hpend rfl
  exact ⟨_, hdigest ▸ hstep⟩

/-- DIGEST answers the digest of the message fed, `SHA1(M)` (rules R142, R152). -/
theorem sha1Digest_answers (hopen : sha1Alg.OpenAt compressSha1 m s.sha1)
    (hpend : s.pending = requestOf .sha1Digest :: rest) : ∃ t, StepsOk (sha1Message m) rest s t := by
  have hdigest : digestSha1 (finalized sha1Alg s.sha1).h = sha1Message m :=
    congrArg digestSha1 (hopen.finalized_h sha1Alg_lawful lenFieldSha1_length)
  have hstep : StepsOk (digestSha1 (finalized sha1Alg s.sha1).h) rest s _ := stepsOk_of_sha1 rfl hpend rfl
  exact ⟨_, hdigest ▸ hstep⟩

/-- Settles O42: INIT opens the empty message, each UPDATE extends it by its chunk, and what an engine fed a message holds
and answers depends on the message alone. -/
theorem streamingEquivalence : Obligations.StreamingEquivalence := by
  unfold Obligations.StreamingEquivalence
  refine fun s chunks rest hmax => ⟨fun hpend => ?_, fun hpend => ?_⟩
  · obtain ⟨t₀, hinit, hempty⟩ := md5Init_fed hpend
    obtain ⟨t, ⟨hrun, htpend, htresp⟩, hopen, hother⟩ := (md5Update_extends s.sha1).run_from_init hinit hempty hmax
    obtain ⟨u, hstep, hupend, huresp⟩ := md5Digest_answers hopen htpend
    obtain ⟨hlen, hbuflen, hbuf, hh⟩ := hopen.fields
    exact ⟨t, u, hrun, hlen, hbuflen, hbuf, hh, hopen.not_fin, hother, htresp, hstep, hupend, huresp⟩
  · obtain ⟨t₀, hinit, hempty⟩ := sha1Init_fed hpend
    obtain ⟨t, ⟨hrun, htpend, htresp⟩, hopen, hother⟩ := (sha1Update_extends s.md5).run_from_init hinit hempty hmax
    obtain ⟨u, hstep, hupend, huresp⟩ := sha1Digest_answers hopen htpend
    obtain ⟨hlen, hbuflen, hbuf, hh⟩ := hopen.fields
    exact ⟨t, u, hrun, hlen, hbuflen, hbuf, hh, hopen.not_fin, hother, htresp, hstep, hupend, huresp⟩

end Sys2Proof.Machine
end

section
/-! The contents of the constant ROM (rules R110 to R112, R131): obligations O17 and O18. -/

namespace Sys2Proof.Machine

/-- Every rotate amount of MD5 is between 4 and 23 (rule R111). -/
theorem md5S_bounds (j : BitVec 6) : 4 ≤ md5S j ∧ md5S j ≤ 23 := by
  have hrom : ∀ n ∈ romS.map BitVec.toNat, 4 ≤ n ∧ n ≤ 23 := by decide
  exact hrom _ (md5S_mem_romS j)

/-- The word index of MD5 step `j`, by the formula of its phase (rule R110). -/
theorem md5G_toNat (j : BitVec 6) :
    (md5G j).toNat = [j.toNat, 5 * j.toNat + 1, 3 * j.toNat + 5, 7 * j.toNat].getD (j.toNat / 16) 0 % 16 := by
  revert j
  decide

/-- Settles O17: the bounds come from the entries of the rotate table, the rest is a comparison of finite tables. -/
theorem romTables : Obligations.RomTables := by
  unfold Obligations.RomTables
  refine ⟨fun j => ⟨fun hp => ?_, fun hp => ?_, fun hp => ?_, fun hp => ?_, ?_, md5S_bounds j⟩, ?_, ?_⟩
  · rw [md5G_toNat, hp]
    exact Nat.mod_eq_of_lt (show j.toNat < 16 by omega)
  · rw [md5G_toNat, hp]
    rfl
  · rw [md5G_toNat, hp]
    rfl
  · rw [md5G_toNat, hp]
    rfl
  · revert j
    decide
  · decide
  · decide

/-- Settles O18: the four tables, read row by row. -/
theorem md5RomRows : Obligations.Md5RomRows := by
  unfold Obligations.Md5RomRows
  decide

end Sys2Proof.Machine
end

section
/-! The whole result of an MD5 step (rules R113 to R117): obligation O19. -/

namespace Sys2Proof.Machine

/-- A micro-operation of MD5 phase `p` on a step of that phase: the step body of rule R113, and nothing else. -/
theorem md5MicroOp_result {p : Nat} {j : BitVec 6} (fn : Word → Word → Word → Word) (s : State)
    (hphase : j.toNat / 16 = p) :
    let w := s.md5.work
    let temp := rotl32 (w.a + fn w.b w.c w.d + w.x.get (md5G j).toFin + md5T j) (md5S j)
    md5MicroOp p fn j s = .next { s with md5 := { s.md5 with work :=
      { w with temp := temp, a := w.d, b := w.b + temp, c := w.b, d := w.c,
               j := ⟨j.toNat + 1, Nat.succ_lt_succ j.isLt⟩ } } } := by
  have hin : md5InPhase p j = true := by simp [md5InPhase, hphase]
  exact md5MicroOp_next.mpr ⟨hin, by simp only [setMd5, md5StepBody, add32]⟩

/-- Settles O19: the four kinds are one micro-operation, each with the function of its phase. -/
theorem md5StepResults : Obligations.Md5StepResults := by
  unfold Obligations.Md5StepResults
  refine fun s j => ⟨fun hhi => ?_, fun hlo hhi => ?_, fun hlo hhi => ?_, fun hlo => ?_⟩
  · exact md5MicroOp_result mixF s (by omega)
  · exact md5MicroOp_result mixG s (by omega)
  · exact md5MicroOp_result mixH s (by omega)
  · exact md5MicroOp_result mixI s (by omega)

end Sys2Proof.Machine
end

section
/-! The SHA-1 compression as a whole (rules R126, R140) and the whole result of a SHA-1 step (rules R132 to R136):
obligations O23 and O20. -/

namespace Sys2Proof.Machine

/-- Settles O23: the schedule expanded in place is the growing list (`sha1Load_schedule`) and the working variables are
those of the pure function after every step (`sha1Run_spec`), which makes the compression lawful. -/
theorem sha1CompressionIsTheSpecifiedFunction : Obligations.Sha1CompressionIsTheSpecifiedFunction := by
  unfold Obligations.Sha1CompressionIsTheSpecifiedFunction
  exact fun e blk => ⟨(sha1Compress e blk).work, sha1Alg_lawful.compress_eq e blk⟩

/-- Reading schedule word `W[i]` inside the schedule. -/
theorem schedWord_eq_getElem (w : Vector Word 80) {i : Nat} (hi : i < 80) : schedWord w i = w[i] := by
  simp [schedWord, List.getD_eq_getElem?_getD, hi]

/-- A micro-operation of SHA-1 phase `p` on a step of that phase: the step body of rule R132 with the constant `K[p]`,
and nothing else. -/
theorem sha1MicroOp_result {p : Fin 4} {t : BitVec 7} (fn : Word → Word → Word → Word) (s : State)
    (hphase : t.toNat / 20 = p.val) (ht : t.toNat < 80) :
    let w := s.sha1.work
    let f := fn w.b w.c w.d
    let temp := rotl32 w.a 5 + f + w.e + sha1K p.val + w.w[t.toNat]
    sha1MicroOp p fn t s = .next { s with sha1 := { s.sha1 with work :=
      { w with f := f, k := sha1K p.val, temp := temp, a := temp, b := w.a, c := rotl32 w.b 30, d := w.c, e := w.d,
               t := ⟨t.toNat + 1, Nat.succ_lt_succ ht⟩ } } } := by
  have hin : sha1InPhase p.val t = true := by simp [sha1InPhase, hphase]
  exact sha1MicroOp_next.mpr
    ⟨hin, by simp only [setSha1, sha1StepBody, add32, schedWord_eq_getElem _ ht, Fin.succ_mk]⟩

/-- Settles O20: the four kinds are one micro-operation, each with the function and the constant of its phase. -/
theorem sha1StepResults : Obligations.Sha1StepResults := by
  unfold Obligations.Sha1StepResults
  refine fun s t ht => ⟨fun hhi => ?_, fun hlo hhi => ?_, fun hlo hhi => ?_, fun hlo => ?_⟩
  · exact sha1MicroOp_result (p := 0) mixF1 s (Nat.div_eq_of_lt hhi) ht
  · exact sha1MicroOp_result (p := 1) mixF2 s (show t.toNat / 20 = 1 by omega) ht
  · exact sha1MicroOp_result (p := 2) mixF3 s (show t.toNat / 20 = 2 by omega) ht
  · exact sha1MicroOp_result (p := 3) mixF4 s (show t.toNat / 20 = 3 by omega) ht

end Sys2Proof.Machine
end

section
/-! SUPPORT. Blocks and padding that do not depend on transients: two streams with the same first bytes have the same first
blocks, the blocks of the padded tail are those of the layout of rule R98, and they are the same whatever PAD held. -/

namespace Sys2Proof.Machine

variable {lenField : BitVec 64 → List Byte} {buf : List Byte} {len : BitVec 64}

/-- The first `n` blocks depend on the first `64 * n` bytes only. -/
theorem blocksOf_congr_take {n : Nat} {s t : List Byte} (hs : 64 * n ≤ s.length) (ht : 64 * n ≤ t.length)
    (h : s.take (64 * n) = t.take (64 * n)) : blocksOf n s = blocksOf n t := by
  rw [blocksOf_eq_allBlocks_take n s hs, blocksOf_eq_allBlocks_take n t ht, h]

/-- PADLEN is one block or two, and PAD has room for it (rules R63, R97). -/
theorem padLen_blocks (r : Nat) : 64 * (padLen r / 64) = padLen r ∧ padLen r ≤ 128 := by
  unfold padLen
  split <;> omega

theorem padLayout_length (hbuf : buf.length ≤ 63) (hlf : (lenField len).length = 8) :
    (padLayout lenField buf len).length = padLen buf.length := by
  have hge := padLen_ge hbuf
  simp [padLayout, hlf]
  omega

/-- The blocks that Finalize compresses are those of tail, marker, zeros and length field (rules R98, R103). -/
theorem blocksOf_padTail (pad : PadSpace) (hbuf : buf.length ≤ 63) (hlf : (lenField len).length = 8) :
    blocksOf (padLen buf.length / 64) (padTail lenField buf len pad).toList =
      blocksOf (padLen buf.length / 64) (padLayout lenField buf len) := by
  obtain ⟨hmul, hhi⟩ := padLen_blocks buf.length
  have hlen := padLayout_length hbuf hlf
  refine blocksOf_congr_take (by simpa [hmul] using hhi) (by omega) ?_
  rw [hmul, padTail_take _ _ _ _ hbuf hlf, ← padLayout.eq_def, ← hlen, List.take_length]

/-- Two spaces agree after the same write wherever they were written or agreed before it. -/
theorem memWrite_congr {size : Nat} {p q : Vector Byte size} {addr : Nat} {v : List Byte} {i : Nat} (hi : i < size)
    (hend : i < addr + v.length) (h : i < addr → p[i] = q[i]) : (memWrite p addr v)[i] = (memWrite q addr v)[i] := by
  by_cases ha : i < addr
  · rw [memWrite_outside p addr v i hi (.inl ha), memWrite_outside q addr v i hi (.inl ha), h ha]
  · rw [memWrite_inside p addr v i hi (by omega) hend, memWrite_inside q addr v i hi (by omega) hend]

/-- The four writes of rule R98 cover the first PADLEN cells, for a tail of any length: nothing of what PAD held before
is left there. -/
theorem padTail_congr (p q : PadSpace) (hlf : (lenField len).length = 8) {i : Nat} (hi : i < 128)
    (hpad : i < padLen buf.length) : (padTail lenField buf len p)[i] = (padTail lenField buf len q)[i] := by
  refine memWrite_congr hi (by omega) fun hfield => ?_
  refine memWrite_congr hi (by rw [List.length_replicate]; omega) fun hzeros => ?_
  refine memWrite_congr hi hzeros fun htail => ?_
  exact memWrite_congr hi (by omega) nofun

/-- The blocks that Finalize compresses do not depend on what PAD held. -/
theorem blocksOf_padTail_congr (p q : PadSpace) (hlf : (lenField len).length = 8) :
    blocksOf (padLen buf.length / 64) (padTail lenField buf len p).toList =
      blocksOf (padLen buf.length / 64) (padTail lenField buf len q).toList := by
  obtain ⟨hmul, hhi⟩ := padLen_blocks buf.length
  refine blocksOf_congr_take (by simpa [hmul] using hhi) (by simpa [hmul] using hhi) ?_
  rw [hmul]
  refine List.ext_getElem (by simp) fun i h₁ h₂ => ?_
  have hi : i < padLen buf.length := by simp at h₁; omega
  simpa using padTail_congr p q hlf (by omega) hi

end Sys2Proof.Machine
end

section
/-! A command depends only on H, BUF, LEN and FIN of its engine, on the command and on its payload (rules R33, R158):
obligation O48. Each engine operation keeps the agreement of two engines, then each command body, once for both engines. -/

namespace Sys2Proof.Machine

section
variable {η ω : Type} {A : Alg η ω} {f : η → Block → η} {e e' : Engine η ω}

/-- INIT forgets all that could differ (rules R146, R150). -/
theorem initEngine_sameArch : sameArch (initEngine A e) (initEngine A e') := ⟨rfl, rfl, rfl, rfl⟩

theorem absorb_sameArch (hA : Lawful A f) (data : List Byte) (h : sameArch e e') :
    sameArch (absorb A data e) (absorb A data e') := by
  obtain ⟨hh, hbuf, hlen, hfin⟩ := h
  obtain ⟨ah, abuf, alen, afin, -⟩ := absorb_spec hA data e
  obtain ⟨ah', abuf', alen', afin', -⟩ := absorb_spec hA data e'
  exact ⟨by rw [ah, ah', hh, hbuf], by rw [abuf, abuf', hbuf], by rw [alen, alen', hlen], by rw [afin, afin', hfin]⟩

/-- Finalize overwrites what PAD held before it reads PAD, so its H depends on the agreeing parts only (rule R103). -/
theorem finalize_sameArch (hA : Lawful A f) (hlf : ∀ len, (A.lenField len).length = 8) (h : sameArch e e') :
    sameArch (finalize A e) (finalize A e') := by
  obtain ⟨hh, hbuf, hlen, -⟩ := h
  obtain ⟨fh, fbuf, flen, ffin, -⟩ := finalize_spec hA e
  obtain ⟨fh', fbuf', flen', ffin', -⟩ := finalize_spec hA e'
  refine ⟨?_, fbuf.trans fbuf'.symm, by rw [flen, flen', hlen], ffin.trans ffin'.symm⟩
  rw [fh, fh', hh, padOf, padOf, hbuf, hlen, blocksOf_padTail_congr _ (A.pad e'.work) (hlf e'.len)]

theorem finalized_sameArch (hA : Lawful A f) (hlf : ∀ len, (A.lenField len).length = 8) (h : sameArch e e') :
    sameArch (finalized A e) (finalized A e') := by
  have hfin : e.fin = e'.fin := h.2.2.2
  cases hf : e'.fin with
  | true => rwa [finalized_of_fin (hfin.trans hf), finalized_of_fin hf]
  | false =>
    rw [finalized_of_not_fin (hfin.trans hf), finalized_of_not_fin hf]
    exact finalize_sameArch hA hlf h

end

/-- `put` stores the engine that `get` reads, and responses touch neither: what the command bodies, written once for both
engines, need to know of the engine's place in the state. -/
structure EnginePort {η ω : Type} (get : State → Engine η ω) (put : Engine η ω → State → State) : Prop where
  get_put : ∀ e s, get (put e s) = e
  put_responses : ∀ e s, (put e s).responses = s.responses
  get_respond : ∀ c d s, get (respond c d s) = get s

theorem md5Port : EnginePort State.md5 setMd5 := ⟨setMd5_md5, setMd5_responses, respond_md5⟩

theorem sha1Port : EnginePort State.sha1 setSha1 := ⟨setSha1_sha1, setSha1_responses, respond_sha1⟩

section
variable {η ω : Type} {A : Alg η ω} {f : η → Block → η} {get : State → Engine η ω} {put : Engine η ω → State → State}
  {s s' t t' : State}

/-- From `s` to `t` and from `s'` to `t'` one same response is given, and the engine read by `get` ends the same but for
its transients. -/
def AnsweredAlike (get : State → Engine η ω) (s s' t t' : State) : Prop :=
  ∃ r, t.responses = s.responses ++ [r] ∧ t'.responses = s'.responses ++ [r] ∧ sameArch (get t) (get t')

/-- A command with outcome `o` from `s` has an outcome alike from `s'`: the same response, or the same refusal. -/
structure RunsAlike (get : State → Engine η ω) (s s' : State) (o o' : Host.Outcome State Fault Refusal) : Prop where
  of_next : ∀ t, o = .next t → ∃ t', o' = .next t' ∧ AnsweredAlike get s s' t t'
  of_refused : ∀ why, o = .refused why → o' = .refused why

theorem AnsweredAlike.runsAlike (h : AnsweredAlike get s s' t t') : RunsAlike get s s' (.next t) (.next t') := by
  refine ⟨fun u hu => ?_, nofun⟩
  obtain rfl := Host.Outcome.next.inj hu
  exact ⟨t', rfl, h⟩

theorem raiseError_alike (port : EnginePort get put) (k : ErrorKind) (h : sameArch (get s) (get s')) :
    AnsweredAlike get s s' (raiseError k s) (raiseError k s') := by
  refine ⟨_, raiseError_responses k s, raiseError_responses k s', ?_⟩
  rwa [raiseError, raiseError, port.get_respond, port.get_respond]

theorem complete_alike (port : EnginePort get put) (d : List Byte) {e e' : Engine η ω} (h : sameArch e e') :
    AnsweredAlike get s s' (complete A put d e s) (complete A put d e' s') := by
  refine ⟨⟨statusOk, d⟩, ?_, ?_, ?_⟩
  · rw [complete, respond_responses, port.put_responses]
  · rw [complete, respond_responses, port.put_responses]
  · rwa [complete, complete, port.get_respond, port.get_respond, port.get_put, port.get_put, sameArch_release_left,
      sameArch_release_right]

theorem initWith_alike (port : EnginePort get put) :
    RunsAlike get s s' (initWith A put (get s) s) (initWith A put (get s') s') :=
  (complete_alike port [] initEngine_sameArch).runsAlike

theorem digestWith_alike (port : EnginePort get put) (hA : Lawful A f) (hlf : ∀ len, (A.lenField len).length = 8)
    (render : List Byte → List Byte) (h : sameArch (get s) (get s')) :
    RunsAlike get s s' (digestWith A put render (get s) s) (digestWith A put render (get s') s') := by
  have hsame := finalized_sameArch hA hlf h
  have hh : (finalized A (get s)).h = (finalized A (get s')).h := hsame.1
  rw [digestWith_eq, digestWith_eq, hh]
  exact (complete_alike port _ hsame).runsAlike

theorem updateWith_alike (port : EnginePort get put) (hA : Lawful A f) (payload : Payload)
    (h : sameArch (get s) (get s')) :
    RunsAlike get s s' (updateWith A put payload (get s) s) (updateWith A put payload (get s') s') := by
  obtain ⟨-, -, hlen, hfin⟩ := id h
  unfold updateWith
  rw [hlen, hfin]
  split
  · next k _ => exact (raiseError_alike port k h).runsAlike
  · split
    · exact (complete_alike port [] (absorb_sameArch hA _ h)).runsAlike
    · exact ⟨nofun, fun _ => id⟩

end

theorem exec_md5_alike {i : Instr} {s s' : State} (hcmd : isCommand i = true) (hmd5 : isMd5 i = true)
    (h : sameArch s.md5 s'.md5) : RunsAlike State.md5 s s' (exec i s) (exec i s') := by
  cases i with
  | md5Init => exact initWith_alike md5Port
  | md5Update payload => exact updateWith_alike md5Port md5Alg_lawful payload h
  | md5Digest => exact digestWith_alike md5Port md5Alg_lawful lenFieldMd5_length id h
  | md5Hex => exact digestWith_alike md5Port md5Alg_lawful lenFieldMd5_length hexEncode h
  | sha1Init | sha1Update _ | sha1Digest | sha1Hex => cases hmd5
  | md5StepF j | md5StepG j | md5StepH j | md5StepI j => cases hcmd
  | sha1StepP1 t | sha1StepP2 t | sha1StepP3 t | sha1StepP4 t => cases hcmd

theorem exec_sha1_alike {i : Instr} {s s' : State} (hcmd : isCommand i = true) (hsha1 : isMd5 i = false)
    (h : sameArch s.sha1 s'.sha1) : RunsAlike State.sha1 s s' (exec i s) (exec i s') := by
  cases i with
  | sha1Init => exact initWith_alike sha1Port
  | sha1Update payload => exact updateWith_alike sha1Port sha1Alg_lawful payload h
  | sha1Digest => exact digestWith_alike sha1Port sha1Alg_lawful lenFieldSha1_length id h
  | sha1Hex => exact digestWith_alike sha1Port sha1Alg_lawful lenFieldSha1_length hexEncode h
  | md5Init | md5Update _ | md5Digest | md5Hex => cases hsha1
  | md5StepF j | md5StepG j | md5StepH j | md5StepI j => cases hcmd
  | sha1StepP1 t | sha1StepP2 t | sha1StepP3 t | sha1StepP4 t => cases hcmd

/-- Settles O48: INIT, Absorb and Finalize take agreeing engines to agreeing engines, the padded tail being written whole
before it is read; so each command's body answers alike. -/
theorem commandsDependOnlyOnTheirEnginesState : Obligations.CommandsDependOnlyOnTheirEnginesState := by
  unfold Obligations.CommandsDependOnlyOnTheirEnginesState
  intro i s s' hcmd hmd5 hsha1
  cases hi : isMd5 i with
  | true =>
    have halike := exec_md5_alike hcmd hi (hmd5 hi)
    refine ⟨fun t ht => ?_, halike.of_refused⟩
    obtain ⟨t', ht', r, hr, hr', hsame⟩ := halike.of_next t ht
    exact ⟨t', r, ht', hr, hr', fun _ => hsame, nofun⟩
  | false =>
    have halike := exec_sha1_alike hcmd hi (hsha1 hi)
    refine ⟨fun t ht => ?_, halike.of_refused⟩
    obtain ⟨t', ht', r, hr, hr', hsame⟩ := halike.of_next t ht
    exact ⟨t', r, ht', hr, hr', nofun, fun _ => hsame⟩

end Sys2Proof.Machine
end

section
/-! UPDATE, whole (rules R147, R151, R154): obligations O32 and O33. Absorb and the two errors once for both engines. -/

namespace Sys2Proof.Machine

section
variable {η ω : Type} {A : Alg η ω} {f : η → Block → η} {e : Engine η ω} {data : List Byte}

/-- A payload that is no byte sequence is answered INVALID_INPUT, whatever the engine holds (rule R169). -/
theorem updateWith_notBytes (A : Alg η ω) (put : Engine η ω → State → State) (e : Engine η ω) (s : State) :
    updateWith A put .notBytes e s = .next (raiseError .invalidInput s) := rfl

/-- A byte sequence to a finalised engine is answered FINALIZED_STATE (rule R170). -/
theorem updateWith_of_fin (A : Alg η ω) (put : Engine η ω → State → State) (data : List Byte) (s : State)
    (hfin : e.fin = true) : updateWith A put (.bytes data) e s = .next (raiseError .finalizedState s) := by
  simp [updateWith, updateError, hfin]

/-- An empty payload completes no block and leaves the tail, so it changes nothing but transients (rules R147, R151). -/
theorem absorb_nil_sameArch (hA : Lawful A f) (hbuf : e.buf.length ≤ 63) : sameArch e (absorb A [] e) := by
  obtain ⟨ah, abuf, alen, afin, -⟩ := absorb_spec hA [] e
  have hdiv : e.buf.length / 64 = 0 := Nat.div_eq_of_lt (by omega)
  refine ⟨?_, ?_, ?_, afin.symm⟩
  · rw [ah, List.append_nil, allBlocks, hdiv, blocksOf, List.foldl_nil]
  · rw [abuf, List.append_nil, tailOf, hdiv, Nat.mul_zero, List.drop_zero]
  · simpa using alen.symm

/-- LEN does not wrap within MAX_MSG (rules R19, R154). -/
theorem absorb_len_toNat (hA : Lawful A f) (hfit : e.len.toNat + data.length ≤ maxMsg) :
    (absorb A data e).len.toNat = e.len.toNat + data.length := by
  obtain ⟨-, -, alen, -, -⟩ := absorb_spec hA data e
  unfold maxMsg at hfit
  rw [alen, BitVec.toNat_add, BitVec.toNat_ofNat]
  omega

/-- UPDATE of an engine that is not finalised, whole (rules R147, R151): the engine that is stored, field by field. -/
theorem updateWith_absorbs (hA : Lawful A f) (put : Engine η ω → State → State) (s : State) (hfin : e.fin = false)
    (hbuf : e.buf.length ≤ 63) (hfit : e.len.toNat + data.length ≤ maxMsg) :
    let stream := e.buf ++ data
    let nblk := (e.buf.length + data.length) / 64
    ∃ e', updateWith A put (.bytes data) e s = .next (respond statusOk [] (put e' s)) ∧
      e'.h = (blocksOf nblk stream).foldl f e.h ∧
      e'.buf = stream.drop (64 * nblk) ∧ bufLen e' = (e.buf.length + data.length) % 64 ∧
      e'.len.toNat = e.len.toNat + data.length ∧ e'.fin = false ∧
      (data = [] → sameArch e e') := by
  obtain ⟨ah, abuf, -, afin, -⟩ := absorb_spec hA data e
  have hlen : (e.buf ++ data).length = e.buf.length + data.length := List.length_append
  refine ⟨release A (absorb A data e), updateWith_ok A put data e s hfin hfit, ?_, ?_, ?_,
    absorb_len_toNat hA hfit, afin.trans hfin, ?_⟩
  · rw [release_h, ah, allBlocks, hlen]
  · rw [release_buf, abuf, tailOf, hlen]
  · rw [bufLen, release_buf, abuf, tailOf_length, hlen]
  · rintro rfl
    exact absorb_nil_sameArch hA hbuf

end

/-- Settles O32: the two errors in their order, then Absorb on the MD5 engine. -/
theorem md5UpdateResult : Obligations.Md5UpdateResult := by
  unfold Obligations.Md5UpdateResult
  refine fun s => ⟨updateWith_notBytes md5Alg setMd5 s.md5 s, fun data => ⟨fun hfin => ?_, fun hfin hbuf hfit => ?_⟩⟩
  · exact updateWith_of_fin md5Alg setMd5 data s hfin
  · exact updateWith_absorbs md5Alg_lawful setMd5 s hfin hbuf hfit

/-- Settles O33: the two errors in their order, then Absorb on the SHA-1 engine. -/
theorem sha1UpdateResult : Obligations.Sha1UpdateResult := by
  unfold Obligations.Sha1UpdateResult
  refine fun s => ⟨updateWith_notBytes sha1Alg setSha1 s.sha1 s, fun data => ⟨fun hfin => ?_, fun hfin hbuf hfit => ?_⟩⟩
  · exact updateWith_of_fin sha1Alg setSha1 data s hfin
  · exact updateWith_absorbs sha1Alg_lawful setSha1 s hfin hbuf hfit

end Sys2Proof.Machine
end

section
/-! DIGEST and HEX, whole (rules R103, R148, R149, R152, R153): obligations O36 and O37. Finalize as a whole engine, once for
both engines. -/

namespace Sys2Proof.Machine

section
variable {η ω : Type} {A : Alg η ω} {f : η → Block → η} {e : Engine η ω}

/-- H after the blocks of the padded tail (rules R98, R103). -/
def finalH (A : Alg η ω) (f : η → Block → η) (e : Engine η ω) : η :=
  (blocksOf (padLen e.buf.length / 64) (padLayout A.lenField e.buf e.len)).foldl f e.h

/-- Finalize, whole, for a tail of at most 63 bytes: only the transients are left open (rule R103). -/
theorem finalize_eq (hA : Lawful A f) (hlf : ∀ len, (A.lenField len).length = 8) (hbuf : e.buf.length ≤ 63) :
    ∃ work, finalize A e =
      { h := finalH A f e, buf := [], len := e.len, fin := true, work := work, fresh := e.fresh } := by
  obtain ⟨fh, fbuf, flen, ffin, ffresh⟩ := finalize_spec hA e
  rw [padOf, blocksOf_padTail _ hbuf (hlf e.len)] at fh
  refine ⟨(finalize A e).work, ?_⟩
  rw [finalH, ← fh, ← fbuf, ← flen, ← ffin, ← ffresh]

/-- With FIN = 1, DIGEST and HEX answer from H again (rules R148, R149, R152, R153). -/
theorem digestWith_of_fin (A : Alg η ω) (put : Engine η ω → State → State) (s : State) (hfin : e.fin = true)
    (render : List Byte → List Byte) :
    digestWith A put render e s = .next (complete A put (render (A.digest e.h)) e s) := by
  rw [digestWith_eq, finalized_of_fin hfin]

/-- With FIN = 0, DIGEST and HEX finalise and answer from the new H (rules R148, R149, R152, R153). -/
theorem digestWith_of_not_fin (hA : Lawful A f) (hlf : ∀ len, (A.lenField len).length = 8)
    (put : Engine η ω → State → State) (s : State) (hfin : e.fin = false) (hbuf : e.buf.length ≤ 63) :
    ∃ work, ∀ render, digestWith A put render e s = .next (complete A put (render (A.digest (finalH A f e)))
      { h := finalH A f e, buf := [], len := e.len, fin := true, work := work, fresh := e.fresh } s) := by
  obtain ⟨work, hwork⟩ := finalize_eq hA hlf hbuf
  exact ⟨work, fun render => by rw [digestWith_eq, finalized_of_not_fin hfin, hwork]⟩

end

/-- The end of a command on the MD5 engine as one record update. -/
theorem complete_setMd5_eq (A : Alg Md5H Md5Work) (d : List Byte) (e : Engine Md5H Md5Work) (s : State) :
    complete A setMd5 d e s = { s with md5 := release A e, responses := s.responses ++ [⟨statusOk, d⟩] } := (rfl)

/-- The end of a command on the SHA-1 engine as one record update. -/
theorem complete_setSha1_eq (A : Alg Sha1H Sha1Work) (d : List Byte) (e : Engine Sha1H Sha1Work) (s : State) :
    complete A setSha1 d e s = { s with sha1 := release A e, responses := s.responses ++ [⟨statusOk, d⟩] } := (rfl)

/-- Settles O36: DIGEST and HEX are one body with two renderings, which finalises where FIN = 0. -/
theorem md5DigestAndHexResult : Obligations.Md5DigestAndHexResult := by
  unfold Obligations.Md5DigestAndHexResult
  refine fun s hbuf => ⟨fun hfin => ?_, fun hfin => ?_⟩
  · obtain ⟨_, hrun⟩ := digestWith_of_not_fin md5Alg_lawful lenFieldMd5_length setMd5 s hfin hbuf
    exact ⟨⟨_, _, hrun id⟩, ⟨_, _, hrun hexEncode⟩⟩
  · have hrun := digestWith_of_fin md5Alg setMd5 s hfin
    simp only [complete_setMd5_eq] at hrun
    exact ⟨⟨_, _, hrun id⟩, ⟨_, _, hrun hexEncode⟩⟩

/-- Settles O37: as O36, on the SHA-1 engine. -/
theorem sha1DigestAndHexResult : Obligations.Sha1DigestAndHexResult := by
  unfold Obligations.Sha1DigestAndHexResult
  refine fun s hbuf => ⟨fun hfin => ?_, fun hfin => ?_⟩
  · obtain ⟨_, hrun⟩ := digestWith_of_not_fin sha1Alg_lawful lenFieldSha1_length setSha1 s hfin hbuf
    exact ⟨⟨_, _, hrun id⟩, ⟨_, _, hrun hexEncode⟩⟩
  · have hrun := digestWith_of_fin sha1Alg setSha1 s hfin
    simp only [complete_setSha1_eq] at hrun
    exact ⟨⟨_, _, hrun id⟩, ⟨_, _, hrun hexEncode⟩⟩

end Sys2Proof.Machine
end

section
/-! HexEncode (rules R66, R159): obligation O39. -/

namespace Sys2Proof.Machine

theorem hexEncode_cons (b : Byte) (d : List Byte) :
    hexEncode (b :: d) = hexDigit (b.extractLsb' 4 4) :: hexDigit (b.extractLsb' 0 4) :: hexEncode d := rfl

@[simp] theorem hexEncode_length (d : List Byte) : (hexEncode d).length = 2 * d.length := by
  induction d with
  | nil => rfl
  | cons b d ih => rw [hexEncode_cons, List.length_cons, List.length_cons, List.length_cons, ih, Nat.mul_succ]

/-- The two characters of byte `i`, high nibble first. -/
theorem hexEncode_getElem? (d : List Byte) (i : Nat) (hi : i < d.length) :
    (hexEncode d)[2 * i]? = some (hexDigit (d[i].extractLsb' 4 4)) ∧
    (hexEncode d)[2 * i + 1]? = some (hexDigit (d[i].extractLsb' 0 4)) := by
  induction d generalizing i with
  | nil => cases hi
  | cons b d ih =>
    cases i with
    | zero => exact ⟨rfl, rfl⟩
    | succ i => exact ih i (Nat.lt_of_succ_lt_succ hi)

theorem hexDigit_toNat_of_le (v : BitVec 4) (h : v.toNat ≤ 9) : (hexDigit v).toNat = 0x30 + v.toNat := by
  rw [hexDigit, if_pos h, BitVec.toNat_ofNat, Nat.mod_eq_of_lt (by omega)]

theorem hexDigit_toNat_of_ge (v : BitVec 4) (h : 10 ≤ v.toNat) : (hexDigit v).toNat = 0x61 + (v.toNat - 10) := by
  rw [hexDigit, if_neg (by omega), BitVec.toNat_ofNat, Nat.mod_eq_of_lt (by omega)]

/-- Settles O39, by induction on the bytes. -/
theorem hexEncodeGivesTwoDigitsPerByte : Obligations.HexEncodeGivesTwoDigitsPerByte := by
  unfold Obligations.HexEncodeGivesTwoDigitsPerByte
  refine ⟨fun d => ⟨hexEncode_length d, hexEncode_getElem? d⟩, fun v => ⟨?_, ?_⟩, by decide⟩
  · exact hexDigit_toNat_of_le v
  · exact hexDigit_toNat_of_ge v

end Sys2Proof.Machine
end

section
/-! INIT, whole (rules R146, R150), and what the answers of DIGEST and HEX have in common from every state (rules R156,
R157): obligations O30, O40 and O41. -/

namespace Sys2Proof.Machine

/-- Settles O30: INIT ends by storing the initialised engine. -/
theorem initResult : Obligations.InitResult := by
  unfold Obligations.InitResult
  exact fun s => ⟨⟨_, _, initWith_eq md5Alg setMd5 s.md5 s⟩, ⟨_, _, initWith_eq sha1Alg setSha1 s.sha1 s⟩⟩

theorem digestMd5_length (h : Md5H) : (digestMd5 h).length = 16 := rfl

theorem digestSha1_length (h : Sha1H) : (digestSha1 h).length = 20 := rfl

/-- DIGEST and HEX of one engine give a next state each from every state: one digest `d` for both, one engine but for the
transients, and the rest of the machine untouched. -/
theorem md5Digest_and_hex (s : State) : ∃ t u d, exec .md5Digest s = .next t ∧ exec .md5Hex s = .next u ∧
    t.responses = s.responses ++ [⟨statusOk, d⟩] ∧ u.responses = s.responses ++ [⟨statusOk, hexEncode d⟩] ∧
    d.length = 16 ∧ sameArch t.md5 u.md5 ∧ u.sha1 = t.sha1 :=
  ⟨_, _, digestMd5 (finalized md5Alg s.md5).h, digestWith_eq md5Alg setMd5 id s.md5 s,
    digestWith_eq md5Alg setMd5 hexEncode s.md5 s, by simp, by simp, digestMd5_length _, by simp, by simp⟩

@[inherit_doc md5Digest_and_hex]
theorem sha1Digest_and_hex (s : State) : ∃ t u d, exec .sha1Digest s = .next t ∧ exec .sha1Hex s = .next u ∧
    t.responses = s.responses ++ [⟨statusOk, d⟩] ∧ u.responses = s.responses ++ [⟨statusOk, hexEncode d⟩] ∧
    d.length = 20 ∧ u.md5 = t.md5 ∧ sameArch t.sha1 u.sha1 :=
  ⟨_, _, digestSha1 (finalized sha1Alg s.sha1).h, digestWith_eq sha1Alg setSha1 id s.sha1 s,
    digestWith_eq sha1Alg setSha1 hexEncode s.sha1 s, by simp, by simp, digestSha1_length _, by simp, by simp⟩

/-- Settles O40: the digest is four or five words, and HexEncode doubles the length. -/
theorem digestLengths : Obligations.DigestLengths := by
  unfold Obligations.DigestLengths
  intro s
  obtain ⟨t, u, d, ht, hu, htr, hur, hd, -, -⟩ := md5Digest_and_hex s
  obtain ⟨t', u', d', ht', hu', htr', hur', hd', -, -⟩ := sha1Digest_and_hex s
  exact ⟨⟨t, d, ht, htr, hd⟩, ⟨t', d', ht', htr', hd'⟩, ⟨u, _, hu, hur, by rw [hexEncode_length, hd]⟩,
    ⟨u', _, hu', hur', by rw [hexEncode_length, hd']⟩⟩

/-- Settles O41: DIGEST and HEX finalise the same engine and render the same digest. -/
theorem hexIsHexEncodeOfDigest : Obligations.HexIsHexEncodeOfDigest := by
  unfold Obligations.HexIsHexEncodeOfDigest
  intro s
  obtain ⟨t, u, d, ht, hu, htr, hur, -, harch, hother⟩ := md5Digest_and_hex s
  obtain ⟨t', u', d', ht', hu', htr', hur', -, hother', harch'⟩ := sha1Digest_and_hex s
  exact ⟨⟨t, u, d, ht, hu, htr, hur, harch, hother⟩, ⟨t', u', d', ht', hu', htr', hur', hother', harch'⟩⟩

end Sys2Proof.Machine
end

section
/-! The errors of UPDATE and their order (60_exceptions.md section 1, rules R168 to R170, R172): obligation O34. -/

namespace Sys2Proof.Machine

/-- Settles O34: a payload that is no byte sequence stops the command before FIN is read; FIN stops it before a byte
sequence is looked at. Both rules of the shared UPDATE hold for each engine, and the error is the whole effect. -/
theorem updateErrors : Obligations.UpdateErrors := by
  unfold Obligations.UpdateErrors
  refine fun s => ⟨?md5NotBytes, ?sha1NotBytes, fun hfin data => ?md5Finalized, fun hfin data => ?sha1Finalized⟩
  case md5NotBytes => exact updateWith_notBytes md5Alg setMd5 s.md5 s
  case sha1NotBytes => exact updateWith_notBytes sha1Alg setSha1 s.sha1 s
  case md5Finalized => exact updateWith_of_fin md5Alg setMd5 data s hfin
  case sha1Finalized => exact updateWith_of_fin sha1Alg setSha1 data s hfin

end Sys2Proof.Machine
end

section
/-! The decoder and the encoder are inverse to each other (rules R55 to R58, R67, R68): obligations O1, O3 and O4. -/

namespace Sys2Proof.Machine

theorem md5InPhase_iff {p : Nat} {j : BitVec 6} : md5InPhase p j = true ↔ j.toNat / 16 = p := beq_iff_eq

theorem sha1InPhase_iff {p : Nat} {t : BitVec 7} : sha1InPhase p t = true ↔ t.toNat / 20 = p := beq_iff_eq

/-- Settles O1: the fields of each of the eight words are read off its bits. -/
theorem legalCommandWordsDecode : Obligations.LegalCommandWordsDecode := by
  unfold Obligations.LegalCommandWordsDecode
  exact fun p => ⟨rfl, rfl, rfl, rfl, rfl, rfl, rfl, rfl⟩

/-- Settles O3: a command's word is read back field by field, and a step index is of the phase that well-formedness
names. -/
theorem decodeOfEncodeIsTheInstruction : Obligations.DecodeOfEncodeIsTheInstruction := by
  unfold Obligations.DecodeOfEncodeIsTheInstruction
  intro i hwf
  cases i with
  | md5Init | md5Update _ | md5Digest | md5Hex => rfl
  | sha1Init | sha1Update _ | sha1Digest | sha1Hex => rfl
  | md5StepF j => exact decodeMd5Step_F (md5InPhase_iff.mp hwf)
  | md5StepG j => exact decodeMd5Step_G (md5InPhase_iff.mp hwf)
  | md5StepH j => exact decodeMd5Step_H (md5InPhase_iff.mp hwf)
  | md5StepI j => exact decodeMd5Step_I (md5InPhase_iff.mp hwf)
  | sha1StepP1 t => exact decodeSha1Step_P1 (sha1InPhase_iff.mp hwf)
  | sha1StepP2 t => exact decodeSha1Step_P2 (sha1InPhase_iff.mp hwf)
  | sha1StepP3 t => exact decodeSha1Step_P3 (sha1InPhase_iff.mp hwf)
  | sha1StepP4 t => exact decodeSha1Step_P4 (sha1InPhase_iff.mp hwf)

/-- The four phases of MD5 (rule R67). -/
theorem md5Index_phase (j : BitVec 6) :
    j.toNat / 16 = 0 ∨ j.toNat / 16 = 1 ∨ j.toNat / 16 = 2 ∨ j.toNat / 16 = 3 := by
  omega

/-- The four phases of SHA-1 (rule R68). -/
theorem sha1Index_phase {t : BitVec 7} (ht : t.toNat < 80) :
    t.toNat / 20 = 0 ∨ t.toNat / 20 = 1 ∨ t.toNat / 20 = 2 ∨ t.toNat / 20 = 3 := by
  omega

/-- An MD5 step index decodes to a step of its own phase, which encodes to it (rule R67). -/
theorem decodeMd5Step_ok (j : BitVec 6) : ∃ i, decodeMd5Step j = .ok i ∧ i.wf = true ∧ encode i = .md5Index j := by
  rcases md5Index_phase j with hp | hp | hp | hp
  · exact ⟨_, decodeMd5Step_F hp, md5InPhase_iff.mpr hp, rfl⟩
  · exact ⟨_, decodeMd5Step_G hp, md5InPhase_iff.mpr hp, rfl⟩
  · exact ⟨_, decodeMd5Step_H hp, md5InPhase_iff.mpr hp, rfl⟩
  · exact ⟨_, decodeMd5Step_I hp, md5InPhase_iff.mpr hp, rfl⟩

/-- A SHA-1 step index below 80 decodes to a step of its own phase, which encodes to it (rule R68). -/
theorem decodeSha1Step_ok {t : BitVec 7} (ht : t.toNat < 80) :
    ∃ i, decodeSha1Step t = .ok i ∧ i.wf = true ∧ encode i = .sha1Index t := by
  rcases sha1Index_phase ht with hp | hp | hp | hp
  · exact ⟨_, decodeSha1Step_P1 hp, sha1InPhase_iff.mpr hp, rfl⟩
  · exact ⟨_, decodeSha1Step_P2 hp, sha1InPhase_iff.mpr hp, rfl⟩
  · exact ⟨_, decodeSha1Step_P3 hp, sha1InPhase_iff.mpr hp, rfl⟩
  · exact ⟨_, decodeSha1Step_P4 hp, sha1InPhase_iff.mpr hp, rfl⟩

/-- There is no SHA-1 step past 79 (rules R26, R68). -/
theorem decodeSha1Step_of_ge {t : BitVec 7} (h : 80 ≤ t.toNat) : decodeSha1Step t = .error .noSuchStep := by
  have hq : 4 ≤ t.toNat / 20 := by omega
  unfold decodeSha1Step
  match t.toNat / 20, hq with
  | _ + 4, _ => rfl

theorem encode_of_decodeMd5Step {j : BitVec 6} {i : Instr} (h : decodeMd5Step j = .ok i) :
    i.wf = true ∧ encode i = .md5Index j := by
  obtain ⟨k, hk, hwf, henc⟩ := decodeMd5Step_ok j
  obtain rfl := Except.ok.inj (hk.symm.trans h)
  exact ⟨hwf, henc⟩

theorem encode_of_decodeSha1Step {t : BitVec 7} {i : Instr} (h : decodeSha1Step t = .ok i) :
    i.wf = true ∧ encode i = .sha1Index t := by
  cases Nat.lt_or_ge t.toNat 80 with
  | inl hlt =>
    obtain ⟨k, hk, hwf, henc⟩ := decodeSha1Step_ok hlt
    obtain rfl := Except.ok.inj (hk.symm.trans h)
    exact ⟨hwf, henc⟩
  | inr hge => cases (decodeSha1Step_of_ge hge).symm.trans h

/-- The instruction `i` is well formed, its word is `cmd`, and its payload is `p` where the operation is UPDATE (rules R55
to R58). -/
def ReadFrom (cmd : BitVec 8) (p : Payload) (i : Instr) : Prop :=
  i.wf = true ∧ ∃ q, encode i = .command cmd q ∧ (cmdOp cmd = 1 → q = p)

/-- The four operation codes, and the reserved ones (rules R56, R59). -/
theorem opField_cases (op : BitVec 3) : op = 0 ∨ op = 1 ∨ op = 2 ∨ op = 3 ∨ 4 ≤ op.toNat := by
  revert op
  decide

theorem readFrom_of_decodeMd5Op {op : BitVec 3} {p : Payload} {i : Instr} (h : decodeMd5Op op p = .ok i) :
    ReadFrom (commandWord 0 op) p i := by
  rcases opField_cases op with rfl | rfl | rfl | rfl | hge
  · cases h; exact ⟨rfl, _, rfl, fun hop => absurd hop (by decide)⟩
  · cases h; exact ⟨rfl, _, rfl, fun _ => rfl⟩
  · cases h; exact ⟨rfl, _, rfl, fun hop => absurd hop (by decide)⟩
  · cases h; exact ⟨rfl, _, rfl, fun hop => absurd hop (by decide)⟩
  · rw [decodeMd5Op_of_ge p hge] at h
    cases h

theorem readFrom_of_decodeSha1Op {op : BitVec 3} {p : Payload} {i : Instr} (h : decodeSha1Op op p = .ok i) :
    ReadFrom (commandWord 1 op) p i := by
  rcases opField_cases op with rfl | rfl | rfl | rfl | hge
  · cases h; exact ⟨rfl, _, rfl, fun hop => absurd hop (by decide)⟩
  · cases h; exact ⟨rfl, _, rfl, fun _ => rfl⟩
  · cases h; exact ⟨rfl, _, rfl, fun hop => absurd hop (by decide)⟩
  · cases h; exact ⟨rfl, _, rfl, fun hop => absurd hop (by decide)⟩
  · rw [decodeSha1Op_of_ge p hge] at h
    cases h

/-- A word with `rsv = 0000` is put together again from its other two fields (rule R55). -/
theorem commandWord_of_fields {cmd : BitVec 8} (h : cmdReserved cmd = 0) :
    commandWord (BitVec.ofBool (cmdEngine cmd)) (cmdOp cmd) = cmd := by
  have hengine : BitVec.ofBool (cmdEngine cmd) = cmd.extractLsb' 7 1 := by
    ext i hi
    obtain rfl : i = 0 := by omega
    simp [cmdEngine]
  have hlow : cmd.extractLsb' 3 4 ++ cmd.extractLsb' 0 3 = cmd.extractLsb' 0 7 :=
    BitVec.extractLsb'_append_extractLsb'_eq_extractLsb' rfl
  have hword : cmd.extractLsb' 7 1 ++ cmd.extractLsb' 0 7 = cmd.extractLsb' 0 8 :=
    BitVec.extractLsb'_append_extractLsb'_eq_extractLsb' rfl
  have hrsv : cmd.extractLsb' 3 4 = 0#4 := h
  rw [← hlow, hrsv, BitVec.extractLsb'_eq_self] at hword
  rwa [hengine]

theorem readFrom_of_decodeCommand {cmd : BitVec 8} {p : Payload} {i : Instr} (h : decodeCommand cmd p = .ok i) :
    ReadFrom cmd p i := by
  unfold decodeCommand at h
  split at h
  · cases h
  · next hrsv =>
    have hword := commandWord_of_fields (not_not.mp hrsv)
    rw [← hword]
    cases hengine : cmdEngine cmd with
    | true => exact readFrom_of_decodeSha1Op (by simpa [hengine] using h)
    | false => exact readFrom_of_decodeMd5Op (by simpa [hengine] using h)

/-- Settles O4: a decoded step index is of its step's phase, and a decoded command word is its two fields around
`rsv = 0000`. -/
theorem encodeOfDecodeIsTheWord : Obligations.EncodeOfDecodeIsTheWord := by
  unfold Obligations.EncodeOfDecodeIsTheWord
  intro w i h
  cases w with
  | command cmd p =>
    obtain ⟨hwf, q, hq, hpayload⟩ := readFrom_of_decodeCommand h
    refine ⟨hwf, nofun, nofun, ?_⟩
    rintro _ _ ⟨⟩
    exact ⟨q, hq, hpayload⟩
  | md5Index j =>
    obtain ⟨hwf, henc⟩ := encode_of_decodeMd5Step h
    exact ⟨hwf, fun _ _ => henc, nofun, nofun⟩
  | sha1Index t =>
    obtain ⟨hwf, henc⟩ := encode_of_decodeSha1Step h
    exact ⟨hwf, nofun, fun _ _ => henc, nofun⟩

end Sys2Proof.Machine
end

section
/-! The step requests of a whole compression, presented and carried out one by one (rules R26, R67, R68, R121, R140):
obligations O24 and O25. One request is one issue of the sequencer, so the run is the sequencer's. -/

namespace Sys2Proof.Machine

/-- A run whose every step leads from one state of a sequence to the next. -/
theorem runSteps_of_steps {n : Nat} {f : Nat → State} (h : ∀ k < n, step (f k) = .next (f (k + 1))) :
    runSteps n (f 0) = .next (f n) := by
  induction n generalizing f with
  | zero => exact runSteps_zero (f 0)
  | succ n ih =>
    rw [runSteps_succ n (h 0 (Nat.succ_pos n))]
    exact ih fun k hk => h (k + 1) (Nat.succ_lt_succ hk)

theorem md5MicroOp_of_phase {p : Nat} {j : BitVec 6} (fn : Word → Word → Word → Word) (s : State)
    (h : j.toNat / 16 = p) :
    md5MicroOp p fn j s = .next (setMd5 { s.md5 with work := md5StepBody fn j s.md5.work } s) :=
  md5MicroOp_next.mpr ⟨md5InPhase_iff.mpr h, rfl⟩

theorem sha1MicroOp_of_phase {p : Fin 4} {t : BitVec 7} (fn : Word → Word → Word → Word) (s : State)
    (h : t.toNat / 20 = p.val) (ht : t.toNat < 80) :
    sha1MicroOp p fn t s =
      .next (setSha1 { s.sha1 with work := sha1StepBody fn (sha1K p.val) ⟨t.toNat, ht⟩ s.sha1.work } s) :=
  sha1MicroOp_next.mpr ⟨sha1InPhase_iff.mpr h, rfl⟩

/-- A presented MD5 step index runs the step body with the function of its phase (rules R67, R114 to R117). -/
theorem runRequest_md5Index (j : BitVec 6) (s : State) :
    runRequest (.issue (.md5Index j)) s =
      .next (setMd5 { s.md5 with work := md5StepBody (md5Fn (j.toNat / 16)) j s.md5.work } s) := by
  rcases md5Index_phase j with hp | hp | hp | hp
  · exact (runRequest_issue_ok (w := .md5Index j) s (decodeMd5Step_F hp)).trans (hp ▸ md5MicroOp_of_phase mixF s hp)
  · exact (runRequest_issue_ok (w := .md5Index j) s (decodeMd5Step_G hp)).trans (hp ▸ md5MicroOp_of_phase mixG s hp)
  · exact (runRequest_issue_ok (w := .md5Index j) s (decodeMd5Step_H hp)).trans (hp ▸ md5MicroOp_of_phase mixH s hp)
  · exact (runRequest_issue_ok (w := .md5Index j) s (decodeMd5Step_I hp)).trans (hp ▸ md5MicroOp_of_phase mixI s hp)

/-- A presented SHA-1 step index below 80 runs the step body with the function and the constant of its phase (rules R68,
R133 to R136). -/
theorem runRequest_sha1Index {t : BitVec 7} (ht : t.toNat < 80) (s : State) :
    runRequest (.issue (.sha1Index t)) s =
      .next (setSha1 { s.sha1 with
        work := sha1StepBody (sha1Fn (t.toNat / 20)) (sha1K (t.toNat / 20)) ⟨t.toNat, ht⟩ s.sha1.work } s) := by
  rcases sha1Index_phase ht with hp | hp | hp | hp
  · exact (runRequest_issue_ok (w := .sha1Index t) s (decodeSha1Step_P1 hp)).trans (hp ▸ sha1MicroOp_of_phase (p := 0) mixF1 s hp ht)
  · exact (runRequest_issue_ok (w := .sha1Index t) s (decodeSha1Step_P2 hp)).trans (hp ▸ sha1MicroOp_of_phase (p := 1) mixF2 s hp ht)
  · exact (runRequest_issue_ok (w := .sha1Index t) s (decodeSha1Step_P3 hp)).trans (hp ▸ sha1MicroOp_of_phase (p := 2) mixF3 s hp ht)
  · exact (runRequest_issue_ok (w := .sha1Index t) s (decodeSha1Step_P4 hp)).trans (hp ▸ sha1MicroOp_of_phase (p := 3) mixF4 s hp ht)

/-- A SHA-1 step index of 80 or more stops the model (rule R26). -/
theorem runRequest_sha1Index_of_ge {t : BitVec 7} (ht : 80 ≤ t.toNat) (s : State) :
    runRequest (.issue (.sha1Index t)) s = .fault .noSuchStep :=
  runRequest_issue_error (w := .sha1Index t) s (decodeSha1Step_of_ge ht)

theorem md5StepRequests_drop {k : Nat} (hk : k < 64) :
    md5StepRequests.drop k = .issue (.md5Index (BitVec.ofNat 6 k)) :: md5StepRequests.drop (k + 1) := by
  rw [List.drop_eq_getElem_cons (by simpa [md5StepRequests] using hk)]
  simp [md5StepRequests]

theorem sha1StepRequests_drop {k : Nat} (hk : k < 80) :
    sha1StepRequests.drop k = .issue (.sha1Index (BitVec.ofNat 7 k)) :: sha1StepRequests.drop (k + 1) := by
  rw [List.drop_eq_getElem_cons (by simpa [sha1StepRequests] using hk)]
  simp [sha1StepRequests]

/-- The machine after `k` of the MD5 step requests: the sequencer's transients after `k` issues from `w`. -/
def md5Stepping (s : State) (w : Md5Work) (rest : List Request) (k : Nat) : State :=
  { s with
    md5 := { s.md5 with work := md5Run k w }
    pending := md5StepRequests.drop k ++ rest }

/-- The machine after `k` of the SHA-1 step requests, as for MD5. -/
def sha1Stepping (s : State) (w : Sha1Work) (rest : List Request) (k : Nat) : State :=
  { s with
    sha1 := { s.sha1 with work := sha1Run k w }
    pending := sha1StepRequests.drop k ++ rest }

/-- The request for step `k` does what the sequencer's issue `k` does, its counter being `k` (rule R26). -/
theorem step_md5Stepping (s : State) (h : Md5H) (w : Md5Work) (rest : List Request) {k : Nat} (hk : k < 64) :
    step (md5Stepping s (md5Start h w) rest k) = .next (md5Stepping s (md5Start h w) rest (k + 1)) := by
  obtain ⟨hj, -, -, -, -⟩ := md5Run_spec h w k (by omega)
  have hpend : (md5Stepping s (md5Start h w) rest k).pending =
      .issue (.md5Index (BitVec.ofNat 6 k)) :: (md5StepRequests.drop (k + 1) ++ rest) := by
    rw [md5Stepping, md5StepRequests_drop hk, List.cons_append]
  have hmod : (BitVec.ofNat 6 k).toNat = k := Nat.mod_eq_of_lt hk
  rw [step_cons hpend, runRequest_md5Index, hmod]
  simp only [md5Stepping, setMd5, md5Run, md5Issue, hj, if_pos hk]

@[inherit_doc step_md5Stepping]
theorem step_sha1Stepping (s : State) (h : Sha1H) (w : Sha1Work) (rest : List Request) {k : Nat} (hk : k < 80) :
    step (sha1Stepping s (sha1Start h w) rest k) = .next (sha1Stepping s (sha1Start h w) rest (k + 1)) := by
  obtain ⟨ht, -, -, -, -⟩ := sha1Run_spec h w k (by omega)
  have hpend : (sha1Stepping s (sha1Start h w) rest k).pending =
      .issue (.sha1Index (BitVec.ofNat 7 k)) :: (sha1StepRequests.drop (k + 1) ++ rest) := by
    rw [sha1Stepping, sha1StepRequests_drop hk, List.cons_append]
  have hmod : (BitVec.ofNat 7 k).toNat = k := Nat.mod_eq_of_lt (by omega)
  have hlt : (BitVec.ofNat 7 k).toNat < 80 := by omega
  rw [step_cons hpend, runRequest_sha1Index hlt]
  simp only [sha1Stepping, setSha1, sha1Run, sha1Issue, ht, dif_pos hk, hmod]

/-- The sequencer's working variables, fed forward, are `Compress_MD5` (rules R118, R121). -/
theorem md5Feed_run (h : Md5H) (blk : Block) (w : Md5Work) :
    md5Feed h (md5Run 64 (md5Start h (md5Load blk w))) = compressMd5 h blk := by
  have hcompress := md5Compress_h { State.reset.md5 with h := h, work := w } blk
  rwa [md5Compress_eq] at hcompress

/-- The sequencer's working variables, fed forward, are `Compress_SHA1` (rules R137, R140). -/
theorem sha1Feed_run (h : Sha1H) (blk : Block) (w : Sha1Work) :
    sha1Feed h (sha1Run 80 (sha1Start h (sha1Load blk w))) = compressSha1 h blk := by
  have hcompress := sha1Compress_h { State.reset.sha1 with h := h, work := w } blk
  rwa [sha1Compress_eq] at hcompress

/-- Settles O24: the run is the sequencer's, request by request, and its transients are those of `md5Run_spec`. -/
theorem md5MicroOpsRunACompression : Obligations.Md5MicroOpsRunACompression := by
  unfold Obligations.Md5MicroOpsRunACompression
  intro s blk w rest hwork hpend
  have hstart : md5Stepping s (md5Start s.md5.h (md5Load blk w)) rest 0 = s := by
    rw [md5Stepping, md5Run, List.drop_zero, ← hwork, ← hpend]
  have hrun := runSteps_of_steps fun k hk => step_md5Stepping s s.md5.h (md5Load blk w) rest (k := k) hk
  rw [hstart] at hrun
  obtain ⟨hj, hx, hblk, hpad, -⟩ := md5Run_spec s.md5.h (md5Load blk w) 64 (Nat.le_refl _)
  exact ⟨_, hrun, md5Feed_run s.md5.h blk w, Fin.ext hj, by rw [hwork]; exact hx, hblk, hpad⟩

/-- Settles O25: the run is the sequencer's, request by request, and its transients are those of `sha1Run_spec`. -/
theorem sha1MicroOpsRunACompression : Obligations.Sha1MicroOpsRunACompression := by
  unfold Obligations.Sha1MicroOpsRunACompression
  intro s blk w rest hwork hpend
  have hstart : sha1Stepping s (sha1Start s.sha1.h (sha1Load blk w)) rest 0 = s := by
    rw [sha1Stepping, sha1Run, List.drop_zero, ← hwork, ← hpend]
  have hrun := runSteps_of_steps fun k hk => step_sha1Stepping s s.sha1.h (sha1Load blk w) rest (k := k) hk
  rw [hstart] at hrun
  obtain ⟨ht, hw, hblk, hpad, -⟩ := sha1Run_spec s.sha1.h (sha1Load blk w) 80 (Nat.le_refl _)
  exact ⟨_, hrun, sha1Feed_run s.sha1.h blk w, Fin.ext ht, by rw [hwork]; exact hw, hblk, hpad⟩

end Sys2Proof.Machine
end

section
/-! The step of the machine and the hardware reset (rules R13, R32, R50, R186): obligations O7 to O10, O43 and O52. -/

namespace Sys2Proof.Machine

/-- An opcode-table word has the instruction that its presented word decodes to. -/
theorem decodeTableWord_eq_some {nbits w : Nat} {i : Instr} (h : decodeTableWord nbits w = some i) :
    decode (tableIssue nbits w) = .ok i := by
  unfold decodeTableWord at h
  cases hdec : decode (tableIssue nbits w) with
  | ok k =>
    rw [hdec] at h
    exact congrArg Except.ok (Option.some.inj h)
  | error why =>
    rw [hdec] at h
    cases h

/-- Settles O7: a request that decodes is run as its instruction, and a table word is such a request. -/
theorem stepRunsTheDecodedInstruction : Obligations.StepRunsTheDecodedInstruction := by
  unfold Obligations.StepRunsTheDecodedInstruction
  refine ⟨fun s w rest i hpend hdec => ?_, fun s nbits w i hdec => ?_⟩
  · rw [step_cons hpend, runRequest_issue_ok _ hdec]
  · have hpend : (s.withFetchWord nbits w).pending = .issue (tableIssue nbits w) :: s.pending := rfl
    rw [step_cons hpend, runRequest_issue_ok _ (decodeTableWord_eq_some hdec)]
    rfl

/-- Settles O8: a step looks for the next request and, finding none, keeps the state. -/
theorem idleMachineKeepsItsState : Obligations.IdleMachineKeepsItsState := by
  unfold Obligations.IdleMachineKeepsItsState
  exact fun _ hpend => step_nil hpend

/-- A reset request is carried out as the hardware reset (rule R186). -/
theorem step_reset {s : State} {rest : List Request} (hpend : s.pending = .reset :: rest) :
    step s = .next (hardwareReset { s with pending := rest }) := step_cons hpend

/-- Settles O9: the reset stores both initialised engines, with released transients. -/
theorem hardwareResetInitialisesBothEngines : Obligations.HardwareResetInitialisesBothEngines := by
  unfold Obligations.HardwareResetInitialisesBothEngines
  exact fun s rest hpend => ⟨_, _, _, _, step_reset hpend⟩

/-- Settles O10: the fields of the reset state, as they are defined. -/
theorem resetStateHoldsTheSpecifiedValues : Obligations.ResetStateHoldsTheSpecifiedValues := by
  unfold Obligations.ResetStateHoldsTheSpecifiedValues
  exact ⟨rfl, rfl, rfl, rfl, rfl, rfl, rfl, rfl⟩

/-- Settles O43: the engines of the reset state are as INIT leaves them. -/
theorem resetMeetsTheInvariant : Obligations.ResetMeetsTheInvariant := by
  unfold Obligations.ResetMeetsTheInvariant
  exact ⟨initEngine_at md5Alg compressMd5 State.reset.md5, initEngine_at sha1Alg compressSha1 State.reset.sha1, reset_inv⟩

/-- Settles O52: a step writes one engine's transients, a reset both engines, and an index past 79 gives no next state. -/
theorem stepsAndResetGiveNoResponse : Obligations.StepsAndResetGiveNoResponse := by
  unfold Obligations.StepsAndResetGiveNoResponse
  refine ⟨fun s t j rest hpend h => ?md5, fun s t j rest hpend h => ?sha1, fun s t rest hpend h => ?reset⟩
  case md5 =>
    rw [step_cons hpend, runRequest_md5Index] at h
    rw [← Host.Outcome.next.inj h, setMd5_responses]
  case sha1 =>
    rw [step_cons hpend] at h
    cases Nat.lt_or_ge j.toNat 80 with
    | inl hlt =>
      rw [runRequest_sha1Index hlt] at h
      rw [← Host.Outcome.next.inj h, setSha1_responses]
    | inr hge =>
      rw [runRequest_sha1Index_of_ge hge] at h
      cases h
  case reset =>
    rw [step_reset hpend] at h
    rw [← Host.Outcome.next.inj h, hardwareReset, setSha1_responses, setMd5_responses]

end Sys2Proof.Machine
end

section
/-! Steps outside their phase, and an UPDATE over the longest message (rules R26, R67, R68; entry U3): obligations O21 and
O35. -/

namespace Sys2Proof.Machine

theorem md5MicroOp_of_not_phase {p : Nat} {j : BitVec 6} (fn : Word → Word → Word → Word) (s : State)
    (h : j.toNat / 16 ≠ p) : md5MicroOp p fn j s = .fault .noSuchStep :=
  if_neg (mt md5InPhase_iff.mp h)

theorem sha1MicroOp_of_not_phase {p : Fin 4} {t : BitVec 7} (fn : Word → Word → Word → Word) (s : State)
    (h : t.toNat / 20 ≠ p.val) : sha1MicroOp p fn t s = .fault .noSuchStep :=
  dif_neg (mt sha1InPhase_iff.mp h)

/-- Settles O21: a micro-operation checks its phase first, and the decoder knows no SHA-1 step past 79. -/
theorem microOpsOutsideTheirPhaseStop : Obligations.MicroOpsOutsideTheirPhaseStop := by
  unfold Obligations.MicroOpsOutsideTheirPhaseStop
  refine ⟨fun s j => ⟨?_, ?_, ?_, ?_⟩, fun s t => ⟨?_, ?_, ?_, ?_⟩, fun s t rest hpend hge => ?_⟩
  · exact md5MicroOp_of_not_phase mixF s
  · exact md5MicroOp_of_not_phase mixG s
  · exact md5MicroOp_of_not_phase mixH s
  · exact md5MicroOp_of_not_phase mixI s
  · exact sha1MicroOp_of_not_phase (p := 0) mixF1 s
  · exact sha1MicroOp_of_not_phase (p := 1) mixF2 s
  · exact sha1MicroOp_of_not_phase (p := 2) mixF3 s
  · exact sha1MicroOp_of_not_phase (p := 3) mixF4 s
  · exact ⟨decodeSha1Step_of_ge hge, (step_cons hpend).trans (runRequest_sha1Index_of_ge hge _)⟩

/-- Settles O35: the error checks pass with FIN = 0, and the length check does not. -/
theorem updateOverTheLongestMessageIsRefused : Obligations.UpdateOverTheLongestMessageIsRefused := by
  unfold Obligations.UpdateOverTheLongestMessageIsRefused
  exact fun s data =>
    ⟨updateWith_over md5Alg setMd5 data s.md5 s, updateWith_over sha1Alg setSha1 data s.sha1 s⟩

end Sys2Proof.Machine
end

section
/-! The number of blocks of a padded message (rule R104): obligation O29. -/

namespace Sys2Proof.Machine

theorem padMessage_length {lenField : BitVec 64 → List Byte} {m : List Byte}
    (hlf : (lenField (BitVec.ofNat 64 m.length)).length = 8) :
    (padMessage lenField m).length = m.length + 1 + padZeros m.length + 8 := by
  simp only [padMessage, List.length_append, List.length_singleton, List.length_replicate, hlf]

/-- The zeros end 8 bytes before the first block boundary that leaves room for the length field. -/
theorem padZeros_boundary (n : Nat) : n + 1 + padZeros n + 8 = 64 * ((n + 8) / 64 + 1) := by
  unfold padZeros
  omega

/-- That boundary is one padded tail after the message's complete blocks (rules R63, R97). -/
theorem padLen_boundary (n : Nat) : 64 * ((n + 8) / 64 + 1) = 64 * (n / 64) + padLen (n % 64) := by
  unfold padLen
  split <;> omega

/-- Settles O29: the length of the padded message is the block boundary that its zeros reach. -/
theorem paddedMessageBlockCount : Obligations.PaddedMessageBlockCount := by
  unfold Obligations.PaddedMessageBlockCount
  intro m field hfield
  have hlf : (field (BitVec.ofNat 64 m.length)).length = 8 := by
    rcases hfield with rfl | rfl
    · exact lenFieldMd5_length _
    · exact lenFieldSha1_length _
  have hcount := (padMessage_length hlf).trans (padZeros_boundary m.length)
  exact ⟨hcount, by rw [hcount, tailOf_length, padLen_boundary]⟩

end Sys2Proof.Machine
end

section
/-! An instruction reads and writes its own engine only (rules R13, R53, R145): obligations O46 and O47. -/

namespace Sys2Proof.Machine

section
variable {η ω : Type}

/-- The machine with engine `e` stored by `put` and the responses `rs` given; nothing else changes. -/
def storeAndAnswer (put : Engine η ω → State → State) (e : Engine η ω) (rs : List Response) (s : State) : State :=
  { put e s with responses := s.responses ++ rs }

/-- What `op` stores and answers is decided by the engine that `get` reads, and is all that it does. -/
def LocalTo (get : State → Engine η ω) (put : Engine η ω → State → State)
    (op : State → Host.Outcome State Fault Refusal) : Prop :=
  ∀ s t, op s = .next t → ∃ e rs, ∀ s', get s' = get s → op s' = .next (storeAndAnswer put e rs s')

variable {A : Alg η ω} {get : State → Engine η ω} {put : Engine η ω → State → State}

theorem complete_eq_storeAndAnswer (port : EnginePort get put) (d : List Byte) (e : Engine η ω) (s : State) :
    complete A put d e s = storeAndAnswer put (release A e) [⟨statusOk, d⟩] s := by
  rw [complete, respond, port.put_responses, storeAndAnswer]

/-- An error stores the engine that is there already (rule R168). -/
theorem raiseError_eq_storeAndAnswer (hkeep : ∀ s, put (get s) s = s) (k : ErrorKind) (s : State) :
    raiseError k s = storeAndAnswer put (get s) [⟨errorStatus k, []⟩] s := by
  rw [storeAndAnswer, hkeep, raiseError, respond]

theorem initWith_local (port : EnginePort get put) : LocalTo get put fun s => initWith A put (get s) s := by
  refine fun s _ _ => ⟨release A (initEngine A (get s)), [⟨statusOk, []⟩], fun s' hs => ?_⟩
  simp only [initWith_eq, hs, complete_eq_storeAndAnswer port]

theorem digestWith_local (port : EnginePort get put) (render : List Byte → List Byte) :
    LocalTo get put fun s => digestWith A put render (get s) s := by
  refine fun s _ _ => ⟨release A (finalized A (get s)),
    [⟨statusOk, render (A.digest (finalized A (get s)).h)⟩], fun s' hs => ?_⟩
  simp only [digestWith_eq, hs, complete_eq_storeAndAnswer port]

theorem updateWith_of_error {payload : Payload} {e : Engine η ω} {k : ErrorKind} (s : State)
    (h : updateError e.fin payload = some k) : updateWith A put payload e s = .next (raiseError k s) := by
  rw [updateWith, h]

theorem updateWith_local (port : EnginePort get put) (hkeep : ∀ s, put (get s) s = s) (payload : Payload) :
    LocalTo get put fun s => updateWith A put payload (get s) s := by
  intro s t h
  obtain ⟨k, hk, -⟩ | ⟨data, rfl, hfin, hfit, -⟩ := updateWith_next h
  · refine ⟨get s, [⟨errorStatus k, []⟩], fun s' hs => ?_⟩
    beta_reduce
    rw [updateWith_of_error s' (hs ▸ hk), raiseError_eq_storeAndAnswer hkeep, hs]
  · refine ⟨release A (absorb A data (get s)), [⟨statusOk, []⟩], fun s' hs => ?_⟩
    beta_reduce
    rw [hs, updateWith_ok A put data (get s) s' hfin hfit, complete_eq_storeAndAnswer port]

end

theorem md5MicroOp_local (p : Nat) (fn : Word → Word → Word → Word) (j : BitVec 6) :
    LocalTo State.md5 setMd5 (md5MicroOp p fn j) := by
  intro s t h
  obtain ⟨hphase, -⟩ := md5MicroOp_next.mp h
  refine ⟨{ s.md5 with work := md5StepBody fn j s.md5.work }, [], fun s' hs => ?_⟩
  rw [md5MicroOp_of_phase fn s' (md5InPhase_iff.mp hphase), hs, storeAndAnswer, List.append_nil]
  rfl

theorem sha1MicroOp_local (p : Fin 4) (fn : Word → Word → Word → Word) (j : BitVec 7) :
    LocalTo State.sha1 setSha1 (sha1MicroOp p fn j) := by
  intro s t h
  obtain ⟨hphase, -⟩ := sha1MicroOp_next.mp h
  refine ⟨{ s.sha1 with work := sha1StepBody fn (sha1K p.val) ⟨j.toNat, sha1InPhase_lt p j hphase⟩ s.sha1.work }, [],
    fun s' hs => ?_⟩
  rw [sha1MicroOp_of_phase fn s' (sha1InPhase_iff.mp hphase) (sha1InPhase_lt p j hphase), hs, storeAndAnswer,
    List.append_nil]
  rfl

theorem exec_md5_local {i : Instr} (hi : isMd5 i = true) : LocalTo State.md5 setMd5 (exec i) := by
  cases i with
  | md5Init => exact initWith_local md5Port
  | md5Update payload => exact updateWith_local md5Port (fun _ => rfl) payload
  | md5Digest => exact digestWith_local md5Port id
  | md5Hex => exact digestWith_local md5Port hexEncode
  | md5StepF j => exact md5MicroOp_local 0 mixF j
  | md5StepG j => exact md5MicroOp_local 1 mixG j
  | md5StepH j => exact md5MicroOp_local 2 mixH j
  | md5StepI j => exact md5MicroOp_local 3 mixI j
  | sha1Init | sha1Update _ | sha1Digest | sha1Hex => cases hi
  | sha1StepP1 t | sha1StepP2 t | sha1StepP3 t | sha1StepP4 t => cases hi

theorem exec_sha1_local {i : Instr} (hi : isMd5 i = false) : LocalTo State.sha1 setSha1 (exec i) := by
  cases i with
  | sha1Init => exact initWith_local sha1Port
  | sha1Update payload => exact updateWith_local sha1Port (fun _ => rfl) payload
  | sha1Digest => exact digestWith_local sha1Port id
  | sha1Hex => exact digestWith_local sha1Port hexEncode
  | sha1StepP1 t => exact sha1MicroOp_local 0 mixF1 t
  | sha1StepP2 t => exact sha1MicroOp_local 1 mixF2 t
  | sha1StepP3 t => exact sha1MicroOp_local 2 mixF3 t
  | sha1StepP4 t => exact sha1MicroOp_local 3 mixF4 t
  | md5Init | md5Update _ | md5Digest | md5Hex => cases hi
  | md5StepF j | md5StepG j | md5StepH j | md5StepI j => cases hi

/-- An MD5 instruction leaves the SHA-1 engine and the requests alone. -/
theorem exec_md5_frame {i : Instr} {s t : State} (hi : isMd5 i = true) (h : exec i s = .next t) :
    t.sha1 = s.sha1 ∧ t.pending = s.pending := by
  obtain ⟨e, rs, hrun⟩ := exec_md5_local hi s t h
  obtain rfl := Host.Outcome.next.inj ((hrun s rfl).symm.trans h)
  exact ⟨rfl, rfl⟩

/-- A SHA-1 instruction leaves the MD5 engine and the requests alone. -/
theorem exec_sha1_frame {i : Instr} {s t : State} (hi : isMd5 i = false) (h : exec i s = .next t) :
    t.md5 = s.md5 ∧ t.pending = s.pending := by
  obtain ⟨e, rs, hrun⟩ := exec_sha1_local hi s t h
  obtain rfl := Host.Outcome.next.inj ((hrun s rfl).symm.trans h)
  exact ⟨rfl, rfl⟩

/-- Settles O46: an instruction stores its engine and gives responses, and no more. -/
theorem instructionsLeaveTheOtherEngineAlone : Obligations.InstructionsLeaveTheOtherEngineAlone := by
  unfold Obligations.InstructionsLeaveTheOtherEngineAlone
  intro i s t h
  cases hi : isMd5 i with
  | true =>
    obtain ⟨hother, hpend⟩ := exec_md5_frame hi h
    exact ⟨fun _ => hother, nofun, hpend⟩
  | false =>
    obtain ⟨hother, hpend⟩ := exec_sha1_frame hi h
    exact ⟨nofun, fun _ => hother, hpend⟩

/-- Settles O47: what each instruction stores is decided by its own engine, which the other one has not touched. -/
theorem enginesInterleaveFreely : Obligations.EnginesInterleaveFreely := by
  unfold Obligations.EnginesInterleaveFreely
  intro i k s a b hi hk hia hkb
  obtain ⟨e, rs, hrunI⟩ := exec_md5_local hi s a hia
  obtain rfl := Host.Outcome.next.inj ((hrunI s rfl).symm.trans hia)
  obtain ⟨e', rs', hrunK⟩ := exec_sha1_local hk _ b hkb
  obtain rfl := Host.Outcome.next.inj ((hrunK _ rfl).symm.trans hkb)
  exact ⟨storeAndAnswer setSha1 e' rs' s, storeAndAnswer setMd5 e rs (storeAndAnswer setSha1 e' rs' s),
    hrunK s rfl, hrunI _ rfl, rfl, rfl, rfl⟩

end Sys2Proof.Machine
end

section
/-! What a command leaves in its engine's transients (rules R33, R141, R168, R174, entry U4): obligation O31. -/

namespace Sys2Proof.Machine

section
variable {η ω : Type} {A : Alg η ω} {f : η → Block → η} {get : State → Engine η ω}
  {put : Engine η ω → State → State} {s t : State}

/-- One response is given; with OK the engine's transients are the free values of its next release, with an error the
engine is as it was. -/
def ReleasedOrKept (free : Nat → ω) (get : State → Engine η ω) (s t : State) : Prop :=
  ∃ r, t.responses = s.responses ++ [r] ∧
    (r.status = 0x00 → (get t).work = free (get s).fresh ∧ (get t).fresh = (get s).fresh + 1) ∧
    (r.status ≠ 0x00 → get t = get s)

theorem errorStatus_ne_ok (k : ErrorKind) : errorStatus k ≠ 0x00 := by
  cases k <;> decide

theorem raiseError_releasedOrKept (port : EnginePort get put) (free : Nat → ω) (k : ErrorKind) (s : State) :
    ReleasedOrKept free get s (raiseError k s) :=
  ⟨_, raiseError_responses k s, fun hok => absurd hok (errorStatus_ne_ok k), fun _ => port.get_respond _ _ s⟩

theorem complete_releasedOrKept (port : EnginePort get put) (d : List Byte) {e : Engine η ω}
    (hfresh : e.fresh = (get s).fresh) : ReleasedOrKept A.free get s (complete A put d e s) := by
  have hget : get (complete A put d e s) = release A e := by rw [complete, port.get_respond, port.get_put]
  refine ⟨⟨statusOk, d⟩, ?_, fun _ => ?_, fun herr => absurd rfl herr⟩
  · rw [complete, respond_responses, port.put_responses]
  · rw [hget, release_work, release_fresh, hfresh]
    exact ⟨rfl, rfl⟩

theorem initWith_releasedOrKept (port : EnginePort get put) (h : initWith A put (get s) s = .next t) :
    ReleasedOrKept A.free get s t := by
  obtain rfl := Host.Outcome.next.inj h
  exact complete_releasedOrKept port [] (initEngine_fresh A (get s))

theorem digestWith_releasedOrKept (port : EnginePort get put) (hA : Lawful A f) (render : List Byte → List Byte)
    (h : digestWith A put render (get s) s = .next t) : ReleasedOrKept A.free get s t := by
  obtain rfl := Host.Outcome.next.inj h
  exact complete_releasedOrKept port _ (finalized_fresh hA (get s))

theorem updateWith_releasedOrKept (port : EnginePort get put) (hA : Lawful A f) {payload : Payload}
    (h : updateWith A put payload (get s) s = .next t) : ReleasedOrKept A.free get s t := by
  obtain ⟨k, -, rfl⟩ | ⟨data, -, -, -, rfl⟩ := updateWith_next h
  · exact raiseError_releasedOrKept port A.free k s
  · obtain ⟨-, -, -, -, hfresh⟩ := absorb_spec hA data (get s)
    exact complete_releasedOrKept port [] hfresh

end

theorem exec_md5_releasedOrKept {i : Instr} {s t : State} (hcmd : isCommand i = true) (hi : isMd5 i = true)
    (h : exec i s = .next t) : ReleasedOrKept md5Free State.md5 s t := by
  cases i with
  | md5Init => exact initWith_releasedOrKept (A := md5Alg) md5Port h
  | md5Update payload => exact updateWith_releasedOrKept (A := md5Alg) md5Port md5Alg_lawful h
  | md5Digest => exact digestWith_releasedOrKept (A := md5Alg) md5Port md5Alg_lawful id h
  | md5Hex => exact digestWith_releasedOrKept (A := md5Alg) md5Port md5Alg_lawful hexEncode h
  | sha1Init | sha1Update _ | sha1Digest | sha1Hex => cases hi
  | md5StepF j | md5StepG j | md5StepH j | md5StepI j => cases hcmd
  | sha1StepP1 t | sha1StepP2 t | sha1StepP3 t | sha1StepP4 t => cases hcmd

theorem exec_sha1_releasedOrKept {i : Instr} {s t : State} (hcmd : isCommand i = true) (hi : isMd5 i = false)
    (h : exec i s = .next t) : ReleasedOrKept sha1Free State.sha1 s t := by
  cases i with
  | sha1Init => exact initWith_releasedOrKept (A := sha1Alg) sha1Port h
  | sha1Update payload => exact updateWith_releasedOrKept (A := sha1Alg) sha1Port sha1Alg_lawful h
  | sha1Digest => exact digestWith_releasedOrKept (A := sha1Alg) sha1Port sha1Alg_lawful id h
  | sha1Hex => exact digestWith_releasedOrKept (A := sha1Alg) sha1Port sha1Alg_lawful hexEncode h
  | md5Init | md5Update _ | md5Digest | md5Hex => cases hi
  | md5StepF j | md5StepG j | md5StepH j | md5StepI j => cases hcmd
  | sha1StepP1 t | sha1StepP2 t | sha1StepP3 t | sha1StepP4 t => cases hcmd

/-- Settles O31: a command ends in `complete`, which releases, or in `raiseError`, which touches no engine. -/
theorem completedCommandsReleaseTheTransients : Obligations.CompletedCommandsReleaseTheTransients := by
  unfold Obligations.CompletedCommandsReleaseTheTransients
  intro i s t hcmd h
  cases hi : isMd5 i with
  | true =>
    obtain ⟨r, hr, hok, herr⟩ := exec_md5_releasedOrKept hcmd hi h
    exact ⟨r, hr, fun _ => ⟨hok, herr⟩, nofun⟩
  | false =>
    obtain ⟨r, hr, hok, herr⟩ := exec_sha1_releasedOrKept hcmd hi h
    exact ⟨r, hr, nofun, fun _ => ⟨hok, herr⟩⟩

end Sys2Proof.Machine
end

section
/-! Which instructions change an engine, transients apart (rules R16, R19, R20): obligations O49 and O50. -/

namespace Sys2Proof.Machine

section
variable {η ω : Type} {A : Alg η ω} {f : η → Block → η} {e e' : Engine η ω}

theorem sameArch.symm (h : sameArch e e') : sameArch e' e := by
  obtain ⟨hh, hbuf, hlen, hfin⟩ := h
  exact ⟨hh.symm, hbuf.symm, hlen.symm, hfin.symm⟩

theorem sameArch.h_eq (h : sameArch e e') : e.h = e'.h := h.1

theorem sameArch.len_eq (h : sameArch e e') : e.len = e'.len := h.2.2.1

theorem sameArch.fin_eq (h : sameArch e e') : e.fin = e'.fin := h.2.2.2

/-- DIGEST and HEX leave FIN set, whether they set it or found it set. -/
theorem finalized_fin (hA : Lawful A f) (e : Engine η ω) : (finalized A e).fin = true := by
  cases hfin : e.fin with
  | true => rwa [finalized_of_fin hfin]
  | false =>
    obtain ⟨-, -, -, hset, -⟩ := finalize_spec hA e
    rw [finalized_of_not_fin hfin, hset]

/-- DIGEST and HEX leave LEN (rule R19). -/
theorem finalized_len (hA : Lawful A f) (e : Engine η ω) : (finalized A e).len = e.len := by
  cases hfin : e.fin with
  | true => rw [finalized_of_fin hfin]
  | false =>
    obtain ⟨-, -, hlen, -, -⟩ := finalize_spec hA e
    rw [finalized_of_not_fin hfin, hlen]

/-- A tail and payload short of a block compress nothing. -/
theorem absorb_h_of_lt (hA : Lawful A f) {data : List Byte} (h : (e.buf ++ data).length < 64) :
    (absorb A data e).h = e.h := by
  obtain ⟨hh, -, -, -, -⟩ := absorb_spec hA data e
  rw [hh, allBlocks, Nat.div_eq_of_lt h, blocksOf, List.foldl_nil]

/-- `e'` is what an instruction makes of engine `e`, transients apart: it keeps it, or the instruction is the one that may
do more (rules R16, R19, R20). -/
inductive EngineChange (A : Alg η ω) (isInit : Prop) (isUpdate : List Byte → Prop) (isDigest : Prop)
    (e e' : Engine η ω) : Prop
  | keep (h : sameArch e' e)
  | init (hi : isInit) (h : sameArch e' (initEngine A e))
  | absorb (data : List Byte) (hi : isUpdate data) (hfin : e.fin = false) (h : sameArch e' (absorb A data e))
  | finalize (hi : isDigest) (h : sameArch e' (finalized A e))

variable {isInit isDigest : Prop} {isUpdate : List Byte → Prop}

/-- A finalised engine is changed by INIT only (rule R20). -/
theorem EngineChange.frozen (hc : EngineChange A isInit isUpdate isDigest e e') (hfin : e.fin = true)
    (hinit : ¬ isInit) : sameArch e e' := by
  cases hc with
  | keep h => exact h.symm
  | init hi => exact absurd hi hinit
  | absorb data _ hopen => simp [hfin] at hopen
  | finalize _ h =>
    rw [finalized_of_fin hfin] at h
    exact h.symm

/-- What changes H (rule R16). -/
theorem EngineChange.of_h_ne (hc : EngineChange A isInit isUpdate isDigest e e') (hA : Lawful A f) (hne : e'.h ≠ e.h) :
    isInit ∨ (∃ d, isUpdate d ∧ e.fin = false ∧ 64 ≤ (e.buf ++ d).length) ∨ (isDigest ∧ e.fin = false) := by
  cases hc with
  | keep h => exact absurd h.h_eq hne
  | init hi => exact .inl hi
  | absorb data hi hfin h =>
    have hblock : ¬ (e.buf ++ data).length < 64 := fun hlt => hne (h.h_eq.trans (absorb_h_of_lt hA hlt))
    exact .inr (.inl ⟨data, hi, hfin, Nat.le_of_not_lt hblock⟩)
  | finalize hi h =>
    have hfin : e.fin ≠ true := fun hfin => hne (h.h_eq.trans (by rw [finalized_of_fin hfin]))
    exact .inr (.inr ⟨hi, Bool.eq_false_iff.mpr hfin⟩)

/-- What changes LEN (rule R19). -/
theorem EngineChange.of_len_ne (hc : EngineChange A isInit isUpdate isDigest e e') (hA : Lawful A f)
    (hne : e'.len ≠ e.len) : isInit ∨ ∃ d, isUpdate d := by
  cases hc with
  | keep h => exact absurd h.len_eq hne
  | init hi => exact .inl hi
  | absorb data hi => exact .inr ⟨data, hi⟩
  | finalize _ h => exact absurd (h.len_eq.trans (finalized_len hA e)) hne

/-- What sets FIN (rule R20). -/
theorem EngineChange.of_fin_set (hc : EngineChange A isInit isUpdate isDigest e e') (hA : Lawful A f)
    (hfin : e.fin = false) (hset : e'.fin = true) : isDigest := by
  cases hc with
  | keep h => exact absurd (h.fin_eq.symm.trans hset) (by simp [hfin])
  | init _ h => exact absurd (h.fin_eq.symm.trans hset) (by simp)
  | absorb data _ _ h =>
    obtain ⟨-, -, -, hkept, -⟩ := absorb_spec hA data e
    exact absurd (h.fin_eq.symm.trans hset) (by simp [hkept, hfin])
  | finalize hi _ => exact hi

/-- What clears FIN (rule R20). -/
theorem EngineChange.of_fin_cleared (hc : EngineChange A isInit isUpdate isDigest e e') (hfin : e.fin = true)
    (hclear : e'.fin = false) : isInit := by
  by_contra hinit
  have hkept := (hc.frozen hfin hinit).fin_eq
  simp [hfin, hclear] at hkept

end

/-- A step micro-operation writes only transients of its engine (rule R113). -/
theorem md5MicroOp_sameArch {p : Nat} {fn : Word → Word → Word → Word} {j : BitVec 6} {s t : State}
    (h : md5MicroOp p fn j s = .next t) : sameArch t.md5 s.md5 := by
  obtain ⟨-, rfl⟩ := md5MicroOp_next.mp h
  exact ⟨rfl, rfl, rfl, rfl⟩

/-- A step micro-operation writes only transients of its engine (rule R132). -/
theorem sha1MicroOp_sameArch {p : Fin 4} {fn : Word → Word → Word → Word} {j : BitVec 7} {s t : State}
    (h : sha1MicroOp p fn j s = .next t) : sameArch t.sha1 s.sha1 := by
  obtain ⟨_, rfl⟩ := sha1MicroOp_next.mp h
  exact ⟨rfl, rfl, rfl, rfl⟩

/-- What any instruction can do to the MD5 engine. -/
theorem exec_md5_change {i : Instr} {s t : State} (h : exec i s = .next t) :
    EngineChange md5Alg (i = .md5Init) (fun d => i = .md5Update (.bytes d)) (i = .md5Digest ∨ i = .md5Hex)
      s.md5 t.md5 := by
  cases i with
  | md5Init => obtain rfl := Host.Outcome.next.inj h; exact .init rfl (by simp)
  | md5Update payload =>
    obtain ⟨k, -, rfl⟩ | ⟨data, rfl, hfin, -, rfl⟩ := updateWith_next h
    · exact .keep (by simp)
    · exact .absorb data rfl hfin (by simp)
  | md5Digest => obtain rfl := Host.Outcome.next.inj h; exact .finalize (.inl rfl) (by simp)
  | md5Hex => obtain rfl := Host.Outcome.next.inj h; exact .finalize (.inr rfl) (by simp)
  | md5StepF j | md5StepG j | md5StepH j | md5StepI j => exact .keep (md5MicroOp_sameArch h)
  | sha1Init | sha1Update _ | sha1Digest | sha1Hex =>
    obtain ⟨hother, -⟩ := exec_sha1_frame rfl h
    exact .keep (by simp [hother])
  | sha1StepP1 t | sha1StepP2 t | sha1StepP3 t | sha1StepP4 t =>
    obtain ⟨hother, -⟩ := exec_sha1_frame rfl h
    exact .keep (by simp [hother])

/-- What any instruction can do to the SHA-1 engine. -/
theorem exec_sha1_change {i : Instr} {s t : State} (h : exec i s = .next t) :
    EngineChange sha1Alg (i = .sha1Init) (fun d => i = .sha1Update (.bytes d)) (i = .sha1Digest ∨ i = .sha1Hex)
      s.sha1 t.sha1 := by
  cases i with
  | sha1Init => obtain rfl := Host.Outcome.next.inj h; exact .init rfl (by simp)
  | sha1Update payload =>
    obtain ⟨k, -, rfl⟩ | ⟨data, rfl, hfin, -, rfl⟩ := updateWith_next h
    · exact .keep (by simp)
    · exact .absorb data rfl hfin (by simp)
  | sha1Digest => obtain rfl := Host.Outcome.next.inj h; exact .finalize (.inl rfl) (by simp)
  | sha1Hex => obtain rfl := Host.Outcome.next.inj h; exact .finalize (.inr rfl) (by simp)
  | sha1StepP1 t | sha1StepP2 t | sha1StepP3 t | sha1StepP4 t => exact .keep (sha1MicroOp_sameArch h)
  | md5Init | md5Update _ | md5Digest | md5Hex =>
    obtain ⟨hother, -⟩ := exec_md5_frame rfl h
    exact .keep (by simp [hother])
  | md5StepF j | md5StepG j | md5StepH j | md5StepI j =>
    obtain ⟨hother, -⟩ := exec_md5_frame rfl h
    exact .keep (by simp [hother])

/-- Settles O49: with FIN = 1 an UPDATE is refused with an error, and DIGEST and HEX find nothing left to do. -/
theorem finalisedEngineIsFrozen : Obligations.FinalisedEngineIsFrozen := by
  unfold Obligations.FinalisedEngineIsFrozen
  exact fun i s t h => ⟨(exec_md5_change h).frozen, (exec_sha1_change h).frozen⟩

/-- Settles O50: each clause is read off what INIT, Absorb and Finalize do to H, LEN and FIN, and which instructions run
them. -/
theorem onlyTheseInstructionsChangeTheState : Obligations.OnlyTheseInstructionsChangeTheState := by
  unfold Obligations.OnlyTheseInstructionsChangeTheState
  intro i s t h
  have md5 := exec_md5_change h
  have sha1 := exec_sha1_change h
  exact ⟨md5.of_h_ne md5Alg_lawful, sha1.of_h_ne sha1Alg_lawful, md5.of_len_ne md5Alg_lawful,
    sha1.of_len_ne sha1Alg_lawful, md5.of_fin_set md5Alg_lawful, sha1.of_fin_set sha1Alg_lawful, md5.of_fin_cleared,
    sha1.of_fin_cleared⟩

end Sys2Proof.Machine
end

section
/-! The commands move an engine from message to message (rules R31, R146 to R153): obligation O45. -/

namespace Sys2Proof.Machine

section
variable {η ω : Type} {A : Alg η ω} {f : η → Block → η} {m : List Byte} {e : Engine η ω}

/-- H after Finalize holds the words of the whole padded message, whether this command finalised or an earlier one did
(rules R103, R122, R142). -/
theorem Alg.At.finalized_h (hA : Lawful A f) (hlf : ∀ len, (A.lenField len).length = 8) (hat : A.At f m e) :
    (finalized A e).h = chainOf f A.iv (padMessage A.lenField m) := by
  obtain ⟨-, -, hh⟩ := (finalized_at hA hlf hat).of_fin (finalized_fin hA e)
  exact hh

/-- The release of the transients at the end of a command keeps the engine at its message. -/
theorem Alg.At.release (hat : A.At f m e) : A.At f m (release A e) := hat.of_sameArch (by simp)

/-- An UPDATE of an engine at `m`, before finalisation, that gives a next state has absorbed its bytes. -/
theorem updateWith_next_of_not_fin {put : Engine η ω → State → State} {d : List Byte} {s t : State}
    (hA : Lawful A f) (hat : A.At f m e) (hfin : e.fin = false) (h : updateWith A put (.bytes d) e s = .next t) :
    ∃ e', t = complete A put [] e' s ∧ A.OpenAt f (m ++ d) e' := by
  obtain ⟨k, hk, -⟩ | ⟨data, hdata, -, hfit, rfl⟩ := updateWith_next h
  · simp [updateError, hfin] at hk
  · obtain rfl := Payload.bytes.inj hdata
    obtain ⟨-, -, -, hkept, -⟩ := absorb_spec hA d e
    exact ⟨_, rfl, absorb_at hA hat hfin hfit, hkept.trans hfin⟩

end

variable {s t : State} {m d : List Byte} {render : List Byte → List Byte}

theorem md5Init_moves (h : exec .md5Init s = .next t) : Md5At [] t ∧ t.md5.fin = false := by
  obtain rfl := Host.Outcome.next.inj h
  have hopen := (initEngine_openAt md5Alg compressMd5 s.md5).release
  rw [Md5At_iff, complete_setMd5_md5]
  exact ⟨hopen.at_message, hopen.not_fin⟩

theorem md5Update_moves (hat : Md5At m s) (hfin : s.md5.fin = false)
    (h : exec (.md5Update (.bytes d)) s = .next t) : Md5At (m ++ d) t ∧ t.md5.fin = false := by
  rw [Md5At_iff] at hat
  obtain ⟨e, rfl, hopen⟩ := updateWith_next_of_not_fin md5Alg_lawful hat hfin h
  rw [Md5At_iff, complete_setMd5_md5]
  exact ⟨hopen.release.at_message, hopen.release.not_fin⟩

/-- DIGEST and HEX of the MD5 engine, which are one body with two renderings (rules R148, R149). -/
theorem md5DigestWith_moves (hat : Md5At m s) (h : digestWith md5Alg setMd5 render s.md5 s = .next t) :
    Md5At m t ∧ t.md5.fin = true ∧ t.responses = s.responses ++ [⟨0x00, render (md5Message m)⟩] := by
  rw [Md5At_iff] at hat
  have hdigest : digestMd5 (finalized md5Alg s.md5).h = md5Message m :=
    congrArg digestMd5 (hat.finalized_h md5Alg_lawful lenFieldMd5_length)
  rw [digestWith_eq, md5Alg_digest, hdigest] at h
  obtain rfl := Host.Outcome.next.inj h
  rw [Md5At_iff, complete_setMd5_md5, release_fin]
  exact ⟨(finalized_at md5Alg_lawful lenFieldMd5_length hat).release, finalized_fin md5Alg_lawful s.md5,
    complete_setMd5_responses _ _ _ s⟩

theorem sha1Init_moves (h : exec .sha1Init s = .next t) : Sha1At [] t ∧ t.sha1.fin = false := by
  obtain rfl := Host.Outcome.next.inj h
  have hopen := (initEngine_openAt sha1Alg compressSha1 s.sha1).release
  rw [Sha1At_iff, complete_setSha1_sha1]
  exact ⟨hopen.at_message, hopen.not_fin⟩

theorem sha1Update_moves (hat : Sha1At m s) (hfin : s.sha1.fin = false)
    (h : exec (.sha1Update (.bytes d)) s = .next t) : Sha1At (m ++ d) t ∧ t.sha1.fin = false := by
  rw [Sha1At_iff] at hat
  obtain ⟨e, rfl, hopen⟩ := updateWith_next_of_not_fin sha1Alg_lawful hat hfin h
  rw [Sha1At_iff, complete_setSha1_sha1]
  exact ⟨hopen.release.at_message, hopen.release.not_fin⟩

/-- DIGEST and HEX of the SHA-1 engine, which are one body with two renderings (rules R152, R153). -/
theorem sha1DigestWith_moves (hat : Sha1At m s) (h : digestWith sha1Alg setSha1 render s.sha1 s = .next t) :
    Sha1At m t ∧ t.sha1.fin = true ∧ t.responses = s.responses ++ [⟨0x00, render (sha1Message m)⟩] := by
  rw [Sha1At_iff] at hat
  have hdigest : digestSha1 (finalized sha1Alg s.sha1).h = sha1Message m :=
    congrArg digestSha1 (hat.finalized_h sha1Alg_lawful lenFieldSha1_length)
  rw [digestWith_eq, sha1Alg_digest, hdigest] at h
  obtain rfl := Host.Outcome.next.inj h
  rw [Sha1At_iff, complete_setSha1_sha1, release_fin]
  exact ⟨(finalized_at sha1Alg_lawful lenFieldSha1_length hat).release, finalized_fin sha1Alg_lawful s.sha1,
    complete_setSha1_responses _ _ _ s⟩

/-- Settles O45: INIT, Absorb and Finalize lead from message to message, and the answer is the digest of the padded
message's words. -/
theorem commandsMoveTheMessage : Obligations.CommandsMoveTheMessage := by
  unfold Obligations.CommandsMoveTheMessage
  exact fun s t m d => ⟨md5Init_moves, sha1Init_moves, md5Update_moves, sha1Update_moves,
    md5DigestWith_moves (render := id), md5DigestWith_moves (render := hexEncode),
    sha1DigestWith_moves (render := id), sha1DigestWith_moves (render := hexEncode)⟩

end Sys2Proof.Machine
end
